-- ==== Sys2Proof/Word.lean ====
section
/-!
DEFINITION. The word types of the hardware (`00_scope.md` rules R3, R4, R5): a word, a register and an
address are 32 bits, a byte is 8 bits; and the widths of the instruction fields (`30_encoding.md` rule R51).
-/

namespace Sys2Proof

/-- A 32-bit word: a register value, an address or an instruction word (rules R4, R5, R31). -/
abbrev Word := BitVec 32

/-- An 8-bit byte (rule R4). -/
abbrev Byte := BitVec 8

/-- The number of a general register, 0 to 31: the fields `rs`, `rt`, `rd` (`10_state.md` rule R14). -/
abbrev RegNo := BitVec 5

/-- The shift amount field `shamt`, 0 to 31 (`30_encoding.md` rule R55). -/
abbrev Shamt := BitVec 5

/-- The 16-bit field `imm16` (`30_encoding.md` rule R53). -/
abbrev Imm16 := BitVec 16

/-- The 26-bit field `target26` of J and JAL (`30_encoding.md` rule R54). -/
abbrev Target26 := BitVec 26

/-- Five bits of an instruction word that its pattern shows as `-`: no value and no field
(`30_encoding.md` rule R52). -/
abbrev Ignored5 := BitVec 5

end Sys2Proof
end

