-- ==== Sys2Proof/Config.lean ====
section
/-!
DEFINITION. What is fixed for one machine and not by the spec: the OPEN parameters `BYTE_ORDER` and `MEM_MAP`
(`00_scope.md` rule R3), and the free values `any32` (`00_scope.md` rule R6).
-/

namespace Sys2Proof

/-- The parameter `BYTE_ORDER` (`20_memory.md` rule R34). -/
inductive ByteOrder where
  | big
  | little
deriving DecidableEq, Repr

/-- A range of byte addresses, `base` up to but not including `base + size`. -/
structure ByteRange where
  base : Nat
  size : Nat
deriving DecidableEq, Repr

/-- A run of aligned 4-byte words: `words` words, the first at byte address `4 * firstWord`. `TEXT` is a union of
aligned words (`20_memory.md` rule R43), so it is a list of these. -/
structure WordRange where
  firstWord : Nat
  words : Nat
deriving DecidableEq, Repr

/-- The parameter `MEM_MAP` (`20_memory.md` rule R43): the pair of address sets `TEXT` and `MAPPED`, where `TEXT` is the
union of `text` and `MAPPED` the union of `text` and `data`. So `TEXT ⊆ MAPPED` holds by construction, and every pair the
rule admits is some `MemMap` (take the whole of `MAPPED` as `data`). -/
structure MemMap where
  text : List WordRange
  data : List ByteRange
deriving DecidableEq, Repr

/-- The OPEN parameters a step reads. No instruction changes them (`20_memory.md` rule R35); State carries them beside the
state proper because `exec` and `step` take the state alone. -/
structure Config where
  byteOrder : ByteOrder
  memMap : MemMap
deriving DecidableEq, Repr

/-- The free values `any32` (`00_scope.md` rule R6): the value of the draw with this number. It has no body, so nothing can
be proved of any of its values: HI after MULT, HI and LO after a DIV corner case (`43_multiply_divide.md` rules R95, R96).
Log entry 8. -/
opaque Config.anyWord : Nat → Word

end Sys2Proof
end

