-- ==== Sys2Proof/Syntax.lean ====
section
/-!
DEFINITION. The 32 instructions (`00_scope.md` rule R2), one constructor per row of `opcode_table.json`, in the table's
order. The arguments are the fields of the row's pattern in the order of the word, high bits first (`30_encoding.md` rules
R50, R51, R57). The five bits that five patterns leave untested (`-` in LUI, SRA, SRL and XOR, the unread letters `s` in
SLL) are carried as well, so that an instruction says every bit of its word; no meaning reads them (rule R52).
-/

namespace Sys2Proof

inductive Instr where
  | add (rs rt rd : RegNo)
  | addi (rs rt : RegNo) (imm16 : Imm16)
  | and (rs rt rd : RegNo)
  | andi (rs rt : RegNo) (imm16 : Imm16)
  | beq (rs rt : RegNo) (imm16 : Imm16)
  | bne (rs rt : RegNo) (imm16 : Imm16)
  | div (rs rt : RegNo)
  | j (target26 : Target26)
  | jal (target26 : Target26)
  | jr (rs : RegNo)
  | lb (rs rt : RegNo) (imm16 : Imm16)
  | lui (ignored : Ignored5) (rt : RegNo) (imm16 : Imm16)
  | lw (rs rt : RegNo) (imm16 : Imm16)
  | mfhi (rd : RegNo)
  | mflo (rd : RegNo)
  | mult (rs rt : RegNo)
  | nor (rs rt rd : RegNo)
  | or (rs rt rd : RegNo)
  | ori (rs rt : RegNo) (imm16 : Imm16)
  | sb (rs rt : RegNo) (imm16 : Imm16)
  | sll (unusedRs : Ignored5) (rt rd : RegNo) (shamt : Shamt)
  | slt (rs rt rd : RegNo)
  | slti (rs rt : RegNo) (imm16 : Imm16)
  | sra (ignored : Ignored5) (rt rd : RegNo) (shamt : Shamt)
  | srl (ignored : Ignored5) (rt rd : RegNo) (shamt : Shamt)
  | sub (rs rt rd : RegNo)
  | sw (rs rt : RegNo) (imm16 : Imm16)
  | xor (rs rt rd : RegNo) (ignored : Ignored5)
  | xori (rs rt : RegNo) (imm16 : Imm16)
  | asrt (rs rt : RegNo)
  | asrti (rt : RegNo) (imm16 : Imm16)
  | halt
deriving DecidableEq, Repr

end Sys2Proof
end

