-- ==== Sys2Proof/WellFormed.lean ====
section
/-!
DEFINITION. Which instructions the assembler can write. Every field takes every value of its width, so the types check all
ranges; the one check left is that the assembler writes 0 in every `-` position and in SLL's unused `rs` field
(`30_encoding.md` rules R52, R68). An instruction that fails it is still decoded and executed (rule R52): well-formedness is
about the text and the word the assembler makes, never about execution.
-/

namespace Sys2Proof

/-- The bits the pattern leaves untested are 0, as the assembler writes them (rules R52, R68). -/
def Instr.wellFormed : Instr → Bool
  | .lui ignored _ _ => ignored == 0#5
  | .sll unusedRs _ _ _ => unusedRs == 0#5
  | .sra ignored _ _ _ => ignored == 0#5
  | .srl ignored _ _ _ => ignored == 0#5
  | .xor _ _ _ ignored => ignored == 0#5
  | .add _ _ _ | .addi _ _ _ | .and _ _ _ | .andi _ _ _ | .beq _ _ _ | .bne _ _ _ | .div _ _ => true
  | .j _ | .jal _ | .jr _ | .lb _ _ _ | .lw _ _ _ | .mfhi _ | .mflo _ | .mult _ _ => true
  | .nor _ _ _ | .or _ _ _ | .ori _ _ _ | .sb _ _ _ | .slt _ _ _ | .slti _ _ _ => true
  | .sub _ _ _ | .sw _ _ _ | .xori _ _ _ | .asrt _ _ | .asrti _ _ | .halt => true

end Sys2Proof
end

