-- ==== Sys2Proof/Decode.lean ====
section
/-!
DEFINITION. Decoding and encoding (`30_encoding.md` rules R49 to R62), the opcode table as masks and patterns (rule R57),
and the byte order of a word in memory (`20_memory.md` rule R34).
-/

namespace Sys2Proof

/-! ### Fields of a word (rule R51) -/

def opcodeOf (w : Word) : BitVec 6 := w.extractLsb' 26 6
def rsOf (w : Word) : RegNo := w.extractLsb' 21 5
def rtOf (w : Word) : RegNo := w.extractLsb' 16 5
def rdOf (w : Word) : RegNo := w.extractLsb' 11 5
def shamtOf (w : Word) : Shamt := w.extractLsb' 6 5
def functOf (w : Word) : BitVec 6 := w.extractLsb' 0 6
def imm16Of (w : Word) : Imm16 := w.extractLsb' 0 16
def target26Of (w : Word) : Target26 := w.extractLsb' 0 26

/-! ### Decoding -/

/-- Why a word is reserved: the three classes of rule R62. -/
inductive Reserved where
  /-- The primary opcode is not in the map of rule R58. -/
  | primaryOpcode
  /-- The primary opcode is 0 and `funct` is not in the map of rule R59. -/
  | functCode
  /-- The opcode and `funct` are listed, but a fixed-zero bit of the pattern is 1 (rule R60). -/
  | fixedBits
deriving DecidableEq, Repr

/-- `i` if the pattern's other fixed bits are as they must be, else the word is reserved (rule R60). -/
def withFixedBits (ok : Bool) (i : Instr) : Except Reserved Instr :=
  if ok then .ok i else .error .fixedBits

/-- The R-layout group, `opcode = 000000`, by `funct` (rule R59). -/
def decodeFunct (w : Word) : Except Reserved Instr :=
  match functOf w with
  | 0x00#6 => .ok (.sll (rsOf w) (rtOf w) (rdOf w) (shamtOf w))
  | 0x02#6 => .ok (.srl (rsOf w) (rtOf w) (rdOf w) (shamtOf w))
  | 0x03#6 => .ok (.sra (rsOf w) (rtOf w) (rdOf w) (shamtOf w))
  | 0x08#6 => withFixedBits (rtOf w == 0#5 && rdOf w == 0#5 && shamtOf w == 0#5) (.jr (rsOf w))
  | 0x10#6 => withFixedBits (rsOf w == 0#5 && rtOf w == 0#5 && shamtOf w == 0#5) (.mfhi (rdOf w))
  | 0x12#6 => withFixedBits (rsOf w == 0#5 && rtOf w == 0#5 && shamtOf w == 0#5) (.mflo (rdOf w))
  | 0x18#6 => withFixedBits (rdOf w == 0#5 && shamtOf w == 0#5) (.mult (rsOf w) (rtOf w))
  | 0x1A#6 => withFixedBits (rdOf w == 0#5 && shamtOf w == 0#5) (.div (rsOf w) (rtOf w))
  | 0x20#6 => withFixedBits (shamtOf w == 0#5) (.add (rsOf w) (rtOf w) (rdOf w))
  | 0x22#6 => withFixedBits (shamtOf w == 0#5) (.sub (rsOf w) (rtOf w) (rdOf w))
  | 0x24#6 => withFixedBits (shamtOf w == 0#5) (.and (rsOf w) (rtOf w) (rdOf w))
  | 0x25#6 => withFixedBits (shamtOf w == 0#5) (.or (rsOf w) (rtOf w) (rdOf w))
  | 0x26#6 => .ok (.xor (rsOf w) (rtOf w) (rdOf w) (shamtOf w))
  | 0x27#6 => withFixedBits (shamtOf w == 0#5) (.nor (rsOf w) (rtOf w) (rdOf w))
  | 0x2A#6 => withFixedBits (shamtOf w == 0#5) (.slt (rsOf w) (rtOf w) (rdOf w))
  | _ => .error .functCode

/-- Decoding of a word, by primary opcode (rule R58): total, and a word that is none of the 32 instructions is rejected by
the name of the reason (rule R62). -/
def decode (w : Word) : Except Reserved Instr :=
  match opcodeOf w with
  | 0x00#6 => decodeFunct w
  | 0x02#6 => .ok (.j (target26Of w))
  | 0x03#6 => .ok (.jal (target26Of w))
  | 0x04#6 => .ok (.beq (rsOf w) (rtOf w) (imm16Of w))
  | 0x05#6 => .ok (.bne (rsOf w) (rtOf w) (imm16Of w))
  | 0x08#6 => .ok (.addi (rsOf w) (rtOf w) (imm16Of w))
  | 0x0A#6 => .ok (.slti (rsOf w) (rtOf w) (imm16Of w))
  | 0x0C#6 => .ok (.andi (rsOf w) (rtOf w) (imm16Of w))
  | 0x0D#6 => .ok (.ori (rsOf w) (rtOf w) (imm16Of w))
  | 0x0E#6 => .ok (.xori (rsOf w) (rtOf w) (imm16Of w))
  | 0x0F#6 => .ok (.lui (rsOf w) (rtOf w) (imm16Of w))
  | 0x14#6 => withFixedBits (imm16Of w == 0#16) (.asrt (rsOf w) (rtOf w))
  | 0x15#6 => withFixedBits (rsOf w == 0#5) (.asrti (rtOf w) (imm16Of w))
  | 0x16#6 => withFixedBits (target26Of w == 0#26) .halt
  | 0x20#6 => .ok (.lb (rsOf w) (rtOf w) (imm16Of w))
  | 0x23#6 => .ok (.lw (rsOf w) (rtOf w) (imm16Of w))
  | 0x28#6 => .ok (.sb (rsOf w) (rtOf w) (imm16Of w))
  | 0x2B#6 => .ok (.sw (rsOf w) (rtOf w) (imm16Of w))
  | _ => .error .primaryOpcode

/-! ### Encoding -/

/-- A word of the R layout (rule R50). -/
def packR (rs rt rd : RegNo) (shamt : Shamt) (funct : BitVec 6) : Word :=
  0x00#6 ++ rs ++ rt ++ rd ++ shamt ++ funct

/-- A word of the I layout (rule R50). -/
def packI (opcode : BitVec 6) (rs rt : RegNo) (imm16 : Imm16) : Word :=
  opcode ++ rs ++ rt ++ imm16

/-- A word of the J layout (rule R50). -/
def packJ (opcode : BitVec 6) (target26 : Target26) : Word :=
  opcode ++ target26

/-- The word of an instruction, from the patterns of rule R57. -/
def encode : Instr → Word
  | .add rs rt rd => packR rs rt rd 0#5 0x20#6
  | .addi rs rt imm16 => packI 0x08#6 rs rt imm16
  | .and rs rt rd => packR rs rt rd 0#5 0x24#6
  | .andi rs rt imm16 => packI 0x0C#6 rs rt imm16
  | .beq rs rt imm16 => packI 0x04#6 rs rt imm16
  | .bne rs rt imm16 => packI 0x05#6 rs rt imm16
  | .div rs rt => packR rs rt 0#5 0#5 0x1A#6
  | .j target26 => packJ 0x02#6 target26
  | .jal target26 => packJ 0x03#6 target26
  | .jr rs => packR rs 0#5 0#5 0#5 0x08#6
  | .lb rs rt imm16 => packI 0x20#6 rs rt imm16
  | .lui ignored rt imm16 => packI 0x0F#6 ignored rt imm16
  | .lw rs rt imm16 => packI 0x23#6 rs rt imm16
  | .mfhi rd => packR 0#5 0#5 rd 0#5 0x10#6
  | .mflo rd => packR 0#5 0#5 rd 0#5 0x12#6
  | .mult rs rt => packR rs rt 0#5 0#5 0x18#6
  | .nor rs rt rd => packR rs rt rd 0#5 0x27#6
  | .or rs rt rd => packR rs rt rd 0#5 0x25#6
  | .ori rs rt imm16 => packI 0x0D#6 rs rt imm16
  | .sb rs rt imm16 => packI 0x28#6 rs rt imm16
  | .sll unusedRs rt rd shamt => packR unusedRs rt rd shamt 0x00#6
  | .slt rs rt rd => packR rs rt rd 0#5 0x2A#6
  | .slti rs rt imm16 => packI 0x0A#6 rs rt imm16
  | .sra ignored rt rd shamt => packR ignored rt rd shamt 0x03#6
  | .srl ignored rt rd shamt => packR ignored rt rd shamt 0x02#6
  | .sub rs rt rd => packR rs rt rd 0#5 0x22#6
  | .sw rs rt imm16 => packI 0x2B#6 rs rt imm16
  | .xor rs rt rd ignored => packR rs rt rd ignored 0x26#6
  | .xori rs rt imm16 => packI 0x0E#6 rs rt imm16
  | .asrt rs rt => packI 0x14#6 rs rt 0#16
  | .asrti rt imm16 => packI 0x15#6 0#5 rt imm16
  | .halt => packJ 0x16#6 0#26

/-! ### The opcode table (rule R57) -/

/-- The 32 mnemonics, in the table's order (`00_scope.md` rule R2). -/
inductive Mnemonic where
  | add | addi | and | andi | beq | bne | div | j | jal | jr | lb | lui | lw | mfhi | mflo | mult
  | nor | or | ori | sb | sll | slt | slti | sra | srl | sub | sw | xor | xori | asrt | asrti | halt
deriving DecidableEq, Repr

/-- The mnemonic of an instruction. -/
def Instr.mnemonic : Instr → Mnemonic
  | .add _ _ _ => .add
  | .addi _ _ _ => .addi
  | .and _ _ _ => .and
  | .andi _ _ _ => .andi
  | .beq _ _ _ => .beq
  | .bne _ _ _ => .bne
  | .div _ _ => .div
  | .j _ => .j
  | .jal _ => .jal
  | .jr _ => .jr
  | .lb _ _ _ => .lb
  | .lui _ _ _ => .lui
  | .lw _ _ _ => .lw
  | .mfhi _ => .mfhi
  | .mflo _ => .mflo
  | .mult _ _ => .mult
  | .nor _ _ _ => .nor
  | .or _ _ _ => .or
  | .ori _ _ _ => .ori
  | .sb _ _ _ => .sb
  | .sll _ _ _ _ => .sll
  | .slt _ _ _ => .slt
  | .slti _ _ _ => .slti
  | .sra _ _ _ _ => .sra
  | .srl _ _ _ _ => .srl
  | .sub _ _ _ => .sub
  | .sw _ _ _ => .sw
  | .xor _ _ _ _ => .xor
  | .xori _ _ _ => .xori
  | .asrt _ _ => .asrt
  | .asrti _ _ => .asrti
  | .halt => .halt

/-- One row of rule R57: `mask` has a 1 at every `0` or `1` position of the pattern, `pattern` a 1 at every `1` position. -/
structure OpcodeRow where
  mnemonic : Mnemonic
  pattern : Word
  mask : Word
deriving DecidableEq, Repr

/-- The rows of rule R57, first half. -/
def opcodeRows1 : List OpcodeRow :=
  [⟨.add, 0x00000020, 0xFC0007FF⟩, ⟨.addi, 0x20000000, 0xFC000000⟩,
   ⟨.and, 0x00000024, 0xFC0007FF⟩, ⟨.andi, 0x30000000, 0xFC000000⟩,
   ⟨.beq, 0x10000000, 0xFC000000⟩, ⟨.bne, 0x14000000, 0xFC000000⟩,
   ⟨.div, 0x0000001A, 0xFC00FFFF⟩, ⟨.j, 0x08000000, 0xFC000000⟩,
   ⟨.jal, 0x0C000000, 0xFC000000⟩, ⟨.jr, 0x00000008, 0xFC1FFFFF⟩,
   ⟨.lb, 0x80000000, 0xFC000000⟩, ⟨.lui, 0x3C000000, 0xFC000000⟩,
   ⟨.lw, 0x8C000000, 0xFC000000⟩, ⟨.mfhi, 0x00000010, 0xFFFF07FF⟩,
   ⟨.mflo, 0x00000012, 0xFFFF07FF⟩, ⟨.mult, 0x00000018, 0xFC00FFFF⟩]

/-- The rows of rule R57, second half. -/
def opcodeRows2 : List OpcodeRow :=
  [⟨.nor, 0x00000027, 0xFC0007FF⟩, ⟨.or, 0x00000025, 0xFC0007FF⟩,
   ⟨.ori, 0x34000000, 0xFC000000⟩, ⟨.sb, 0xA0000000, 0xFC000000⟩,
   ⟨.sll, 0x00000000, 0xFC00003F⟩, ⟨.slt, 0x0000002A, 0xFC0007FF⟩,
   ⟨.slti, 0x28000000, 0xFC000000⟩, ⟨.sra, 0x00000003, 0xFC00003F⟩,
   ⟨.srl, 0x00000002, 0xFC00003F⟩, ⟨.sub, 0x00000022, 0xFC0007FF⟩,
   ⟨.sw, 0xAC000000, 0xFC000000⟩, ⟨.xor, 0x00000026, 0xFC00003F⟩,
   ⟨.xori, 0x38000000, 0xFC000000⟩, ⟨.asrt, 0x50000000, 0xFC00FFFF⟩,
   ⟨.asrti, 0x54000000, 0xFFE00000⟩, ⟨.halt, 0x58000000, 0xFFFFFFFF⟩]

/-- The complete opcode table (rule R57). The decoder does not read it: it is the spec's second statement of the encoding,
held beside the first. -/
def opcodeRows : List OpcodeRow := opcodeRows1 ++ opcodeRows2

/-- A word matches a row: `(w & mask) = match` (rules R52, R27 step 4). -/
def OpcodeRow.admits (r : OpcodeRow) (w : Word) : Bool := w &&& r.mask == r.pattern

/-! ### The bytes of a word in memory (`20_memory.md` rule R34) -/

/-- The word made of the bytes at `a`, `a+1`, `a+2`, `a+3` (rule R34). -/
def ByteOrder.wordOf (o : ByteOrder) (b0 b1 b2 b3 : Byte) : Word :=
  match o with
  | .big => b0 ++ b1 ++ b2 ++ b3
  | .little => b3 ++ b2 ++ b1 ++ b0

/-- The byte of `w` that lies at `a + k` when `w` lies at `a`, for `k` from 0 to 3 (rules R34, R39). -/
def ByteOrder.byteOf (o : ByteOrder) (w : Word) (k : Nat) : Byte :=
  match o with
  | .big => w.extractLsb' (24 - 8 * k) 8
  | .little => w.extractLsb' (8 * k) 8

/-- Decoding of the four bytes of an instruction, in the order they lie in memory. -/
def decodeBytes (o : ByteOrder) (b0 b1 b2 b3 : Byte) : Except Reserved Instr :=
  decode (o.wordOf b0 b1 b2 b3)

/-- The instruction word with the `nbits` low bits of `w`, every other bit 0. -/
def tableWord (nbits w : Nat) : Word := BitVec.ofNat 32 (w % 2 ^ nbits)

/-- The instruction the decoder reads from the word of an opcode-table row. The word is laid out as memory holds it; the
two byte orders read it back alike, so one of them is used. -/
def decodeTableWord (nbits w : Nat) : Option Instr :=
  let v := tableWord nbits w
  match decodeBytes .big (ByteOrder.big.byteOf v 0) (ByteOrder.big.byteOf v 1)
      (ByteOrder.big.byteOf v 2) (ByteOrder.big.byteOf v 3) with
  | .ok i => some i
  | .error _ => none

end Sys2Proof
end

