-- ==== Sys2Proof/Machine/State.lean ====
section
/-!
DEFINITION. The architectural state (`10_state.md` rule R13), the faults (`60_exceptions.md` rule R115), and the state
right after reset (`10_state.md` rule R29).
-/

namespace Sys2Proof.Machine

/-- The direction of a data access, as `MisalignedAccess` and `UnmappedAccess` record it (rule R115). -/
inductive Direction where
  | read
  | write
deriving DecidableEq, Repr

/-- The width of a data access, 1 or 4 bytes, as `UnmappedAccess` records it (rules R32, R115). -/
inductive Width where
  | byte
  | word
deriving DecidableEq, Repr

/-- The faults of `60_exceptions.md` rule R115: values of the state's `fault`, each recorded by `State.raise` in a next
state that changes nothing else (rule R116); the outcome of every later step is the recorded fault. All of them are safe:
they stand where the source gives no meaning (rule R123). -/
inductive Fault where
  /-- `FetchMisaligned(a)`: raised by the fetch when `pc` is not a multiple of 4. Safe. -/
  | fetchMisaligned (a : Word)
  /-- `FetchUnmapped(a)`: raised by the fetch when a byte of the instruction is outside `TEXT`. Safe. -/
  | fetchUnmapped (a : Word)
  /-- `ReservedInstruction(a, w)`: raised at decode when the word is none of the 32 instructions. Safe. -/
  | reservedInstruction (a w : Word)
  /-- `UninitialisedRead(mem, a)`: raised by the fetch, LB and LW when a byte read has no value; `a` is the address of the
  access. Safe. The spec's other cases, a register without a value, do not arise: every register holds a value. -/
  | uninitialisedRead (a : Word)
  /-- `IntegerOverflow(a)`: raised by ADD, ADDI and SUB; `a` is the instruction's `pc`. Safe. -/
  | integerOverflow (a : Word)
  /-- `MisalignedAccess(ea, dir)`: raised by LW and SW. Safe. -/
  | misalignedAccess (ea : Word) (dir : Direction)
  /-- `UnmappedAccess(ea, dir, n)`: raised by LB, LW, SB and SW. Safe. -/
  | unmappedAccess (ea : Word) (dir : Direction) (n : Width)
  /-- `TextWrite(ea)`: raised by SB and SW when a byte of the store lies in `TEXT`. Safe. -/
  | textWrite (ea : Word)
  /-- `AssertFailed(a, v1, v2)`: raised by ASRT and ASRTI when the values differ. Safe. -/
  | assertFailed (a v1 v2 : Word)
deriving DecidableEq, Repr

/-- The refusals. -/
inductive Refusal where
  /-- An instruction without a meaning: raised only by an arm of `exec` that has none. Safe. No arm does. -/
  | notModelled (mnemonic : String)
deriving DecidableEq, Repr

/-- Memory as the bytes that have a value, by rising address (rule R24). An address that is not listed has no value
(rule R30): reading it faults. -/
abbrev Memory := List Host.Cell

/-- The architectural state (rule R13), with the OPEN parameters a step reads. -/
structure State where
  /-- The general registers `x[0]` .. `x[31]` (rule R14). Slot 0 is never read or written: `x[0]` is 0 (rule R15). -/
  regs : Vector Word 32
  /-- `HI` (rule R17). -/
  hi : Word
  /-- `LO` (rule R17). -/
  lo : Word
  /-- The address of the instruction being executed (rule R18). -/
  pc : Word
  /-- The address of the instruction that executes next (rule R19). -/
  npc : Word
  /-- The bytes of memory that have a value (rule R24). -/
  mem : Memory
  /-- Set by HALT, cleared by nothing (rule R25). -/
  halted : Bool
  /-- Set by `raise`, cleared by nothing (rule R26). -/
  fault : Option Fault
  /-- THE MODEL'S OWN: how many free values have been drawn (`00_scope.md` rule R6, log entry 8). -/
  draws : Nat
  /-- The OPEN parameters `BYTE_ORDER` and `MEM_MAP`, changed by nothing (`20_memory.md` rules R34, R35, R43). -/
  cfg : Config
deriving DecidableEq, Repr

/-- The parameters of the reset state: log entries 1 (`BYTE_ORDER`) and 2 (`MEM_MAP`), both DESIGN CHOICE: the nominal space
of 2^32 bytes is mapped (`20_memory.md` rule R31), and no program is loaded, so `TEXT` is empty. -/
def Config.atReset : Config where
  byteOrder := .big
  memMap := ⟨[], [⟨0, 2 ^ 32⟩]⟩

/-- The machine right after reset (rule R29): `halted`, `fault` and `npc = pc + 4` as the spec gives them, no byte of memory
with a value; `RESET_PC` is log entry 3, the registers `x[1]` .. `x[31]`, `HI` and `LO` log entry 4, `draws` log entry 8, the
parameters log entries 1 and 2. -/
def State.reset : State where
  regs := Vector.replicate 32 0
  hi := 0
  lo := 0
  pc := 0
  npc := 4
  mem := []
  halted := false
  fault := none
  draws := 0
  cfg := Config.atReset

end Sys2Proof.Machine
end

