-- ==== Sys2Proof/Machine/Ops.lean ====
section
/-!
DEFINITION. The named operations over registers, program counters, free values, faults and memory
(`00_scope.md` rules R6, R8; `10_state.md` rules R15 to R20; `20_memory.md` rules R33 to R43; `60_exceptions.md` rule R116).
-/

namespace Sys2Proof.Machine

/-- What a step of this machine answers. -/
abbrev Answer := Host.Outcome State Fault Refusal

/-! ### Registers -/

/-- `x[r]`: register 0 reads as 0 (rule R15). -/
def State.reg (s : State) (r : RegNo) : Word :=
  if r = 0#5 then 0#32 else s.regs[r.toNat]

/-- `x[r] <- v`: a write to register 0 is discarded (rule R15). -/
def State.setReg (s : State) (r : RegNo) (v : Word) : State :=
  if r = 0#5 then s else { s with regs := s.regs.set r.toNat v }

/-- `LO <- v` (rule R17). -/
def State.setLo (s : State) (v : Word) : State := { s with lo := v }

/-- `HI <- v` (rule R17). -/
def State.setHi (s : State) (v : Word) : State := { s with hi := v }

/-! ### Program counters -/

/-- `advance_pc(k)` (`00_scope.md` rule R8). -/
def State.advance (s : State) (k : Word) : State := { s with pc := s.npc, npc := s.npc + k }

/-- `pc <- npc; npc <- target` (`10_state.md` rule R20 (c)). -/
def State.jumpTo (s : State) (target : Word) : State := { s with pc := s.npc, npc := target }

/-! ### Stopping -/

/-- `raise F(info)` (`60_exceptions.md` rule R116): `fault` is set and nothing else changes. There is no exception entry
(rule R120): no register saves the pc or a status, no mode changes, and control goes nowhere; the processor takes no
further step (`10_state.md` rule R26). There is no return either (rule R121). -/
def State.raise (s : State) (f : Fault) : State := { s with fault := some f }

/-- `halted <- true` (rule R112). -/
def State.halt (s : State) : State := { s with halted := true }

/-- The end of a pseudocode that may raise: the state it made, or the fault in the state before the instruction
(rule R116: the instruction writes nothing else). -/
def State.orRaise (s : State) : Except Fault State → Answer
  | .ok t => .next t
  | .error f => .next (s.raise f)

/-! ### Free values -/

/-- The `k`-th next draw of `any32` (`00_scope.md` rule R6). -/
def State.anyWord (s : State) (k : Nat) : Word := Config.anyWord (s.draws + k)

/-- `k` draws have been used: each later draw is a fresh one. -/
def State.spend (s : State) (k : Nat) : State := { s with draws := s.draws + k }

/-! ### Memory as data -/

/-- The byte at an address, if it has a value. -/
def Memory.read : Memory → Nat → Option Byte
  | [], _ => none
  | (a', b) :: m, a => if a' = a then some b else Memory.read m a

/-- Memory with the byte `b` at address `a`, by rising address. -/
def Memory.write : Memory → Nat → Byte → Memory
  | [], a, b => [(a, b)]
  | (a', b') :: m, a, b =>
    if a < a' then (a, b) :: (a', b') :: m
    else if a = a' then (a, b) :: m
    else (a', b') :: Memory.write m a b

/-- The canonical form: addresses rise strictly and are addresses of the 32-bit space (rule R31). -/
def Memory.wf : Memory → Bool
  | [] => true
  | (a, _) :: m => decide (a < 2 ^ 32) && m.all (fun c => decide (a < c.1)) && Memory.wf m

/-! ### The address map (`20_memory.md` rule R43) -/

def ByteRange.holds (r : ByteRange) (a : Nat) : Bool := decide (r.base ≤ a) && decide (a < r.base + r.size)

def WordRange.holds (r : WordRange) (a : Nat) : Bool :=
  decide (4 * r.firstWord ≤ a) && decide (a < 4 * (r.firstWord + r.words))

/-- `a ∈ TEXT`. -/
def State.inText (s : State) (a : Word) : Bool := s.cfg.memMap.text.any (WordRange.holds · a.toNat)

/-- `a ∈ MAPPED`. -/
def State.isMapped (s : State) (a : Word) : Bool :=
  s.inText a || s.cfg.memMap.data.any (ByteRange.holds · a.toNat)

/-- The addresses of the four bytes of a word. -/
def wordAddrs (a : Word) : List Word := [a, a + 1#32, a + 2#32, a + 3#32]

/-- `a` is a multiple of 4: `a[1:0] = 0`. -/
def isAligned (a : Word) : Bool := a.extractLsb' 0 2 == 0#2

/-! ### The memory primitives (`20_memory.md` rules R36 to R39) -/

/-- The byte at `a`, if it has a value: `mem[a]` of rule R24. -/
def State.byte (s : State) (a : Word) : Option Byte := Memory.read s.mem a.toNat

/-- `mem[a] <- b`. -/
def State.setByte (s : State) (a : Word) (b : Byte) : State := { s with mem := Memory.write s.mem a.toNat b }

/-- The word that rule R34 makes of the four bytes at `a`, or the fault when one has no value. -/
def State.wordAt (s : State) (a : Word) : Except Fault Word :=
  match s.byte a, s.byte (a + 1#32), s.byte (a + 2#32), s.byte (a + 3#32) with
  | some b0, some b1, some b2, some b3 => .ok (s.cfg.byteOrder.wordOf b0 b1 b2 b3)
  | _, _, _, _ => .error (.uninitialisedRead a)

/-- The four bytes of `w` written at `a` as rule R39 lays them out. -/
def State.setWord (s : State) (a w : Word) : State :=
  (((s.setByte a (s.cfg.byteOrder.byteOf w 0)).setByte (a + 1#32) (s.cfg.byteOrder.byteOf w 1)).setByte
    (a + 2#32) (s.cfg.byteOrder.byteOf w 2)).setByte (a + 3#32) (s.cfg.byteOrder.byteOf w 3)

/-- `MemRead(a, 1)` (rule R36). -/
def State.memRead1 (s : State) (a : Word) : Except Fault Byte :=
  if !s.isMapped a then .error (.unmappedAccess a .read .byte)
  else
    match s.byte a with
    | some b => .ok b
    | none => .error (.uninitialisedRead a)

/-- `MemRead(a, 4)` of a load (rule R37). -/
def State.memRead4 (s : State) (a : Word) : Except Fault Word :=
  if !isAligned a then .error (.misalignedAccess a .read)
  else if !(wordAddrs a).all s.isMapped then .error (.unmappedAccess a .read .word)
  else s.wordAt a

/-- `MemRead(pc, 4)` of a fetch (rules R27, R37, R41, R43). -/
def State.fetchWord (s : State) : Except Fault Word :=
  if !isAligned s.pc then .error (.fetchMisaligned s.pc)
  else if !(wordAddrs s.pc).all s.inText then .error (.fetchUnmapped s.pc)
  else s.wordAt s.pc

/-- `MemWrite(a, 1, v)` (rule R38). -/
def State.memWrite1 (s : State) (a : Word) (v : Byte) : Except Fault State :=
  if !s.isMapped a then .error (.unmappedAccess a .write .byte)
  else if s.inText a then .error (.textWrite a)
  else .ok (s.setByte a v)

/-- `MemWrite(a, 4, v)` (rule R39). -/
def State.memWrite4 (s : State) (a v : Word) : Except Fault State :=
  if !isAligned a then .error (.misalignedAccess a .write)
  else if !(wordAddrs a).all s.isMapped then .error (.unmappedAccess a .write .word)
  else if (wordAddrs a).any s.inText then .error (.textWrite a)
  else .ok (s.setWord a v)

/-! ### Loading an instruction from outside (`70_reset_and_hazards.md` rules R131, R133) -/

/-- The state with `w` as the program's word at `pc` (rounded down to a multiple of 4), that word in `TEXT`, and the
processor running: what the host does for one instruction before a launch. -/
def State.placeInstruction (s : State) (w : Word) : State :=
  let at4 := (s.pc.toNat / 4) * 4
  let run : State :=
    { s with
      pc := BitVec.ofNat 32 at4
      halted := false
      fault := none
      cfg := { s.cfg with memMap := { s.cfg.memMap with text := ⟨s.pc.toNat / 4, 1⟩ :: s.cfg.memMap.text } } }
  run.setWord run.pc w

end Sys2Proof.Machine
end

