-- ==== Sys2Proof/Machine/Operands.lean ====
section
/-!
DEFINITION. Every operand form of the hardware (`30_encoding.md` rules R53 to R56): immediates, the shift amount, the jump
target, and base plus displacement.
-/

namespace Sys2Proof.Machine

/-- `sext_16(imm16)`: ADDI, SLTI, ASRTI, and the displacements (rule R53). -/
def signedImm (imm16 : Imm16) : Word := imm16.signExtend 32

/-- `zext_16(imm16)`: ANDI, ORI, XORI (rule R53). -/
def zeroImm (imm16 : Imm16) : Word := imm16.zeroExtend 32

/-- `imm16 ++ 0x0000`: LUI (rules R53, R84). -/
def upperImm (imm16 : Imm16) : Word := imm16 ++ 0x0000#16

/-- `sext_8(b)`: LB (`44_load_store.md` rule R105). -/
def signedByte (b : Byte) : Word := b.signExtend 32

/-- `x[rt][7:0]`: SB (`44_load_store.md` rule R103). -/
def lowByte (w : Word) : Byte := w.extractLsb' 0 8

/-- `sext_16(imm16) << 2`: BEQ, BNE (rules R53, R85). -/
def branchOffset (imm16 : Imm16) : Word := signedImm imm16 <<< 2

/-- `pc[31:28] ++ target26 ++ 0b00`: J, JAL, with `slot` the delay slot's address (rules R54, R87). -/
def regionTarget (slot : Word) (target26 : Target26) : Word :=
  (slot.extractLsb' 28 4 : BitVec 4) ++ target26 ++ 0#2

/-- The effective address `x[rs] + sext_16(imm16)` modulo 2^32 (`20_memory.md` rule R33). -/
def State.ea (s : State) (rs : RegNo) (imm16 : Imm16) : Word := s.reg rs + signedImm imm16

end Sys2Proof.Machine
end

