-- ==== Sys2Proof/Machine/Flags.lean ====
section
/-!
DEFINITION. The hardware has no flags (`10_state.md` rule R21). This file holds the conditions its instructions compute
instead of flags, and the two ways an instruction that advances by 4 delivers a general-register result.
-/

namespace Sys2Proof.Machine

/-- Signed overflow of an exact result (`40_arithmetic.md` rule R70). -/
def overflows (r : Int) : Bool := decide (r < -2 ^ 31) || decide (2 ^ 31 - 1 < r)

/-- `0x00000001` if `a` is less than `b` as signed numbers, else `0x00000000` (`40_arithmetic.md` rules R69, R74). -/
def setIfLess (a b : Word) : Word := if a.toInt < b.toInt then 1#32 else 0#32

/-- `x[r] <- v; advance_pc(4)`. -/
def State.deliver (s : State) (r : RegNo) (v : Word) : Answer := .next ((s.setReg r v).advance 4#32)

/-- `x[r] <- v mod 2^32; advance_pc(4)` for an exact signed result `v` that fits, else `IntegerOverflow(pc)`
(`40_arithmetic.md` rule R70). -/
def State.deliverExact (s : State) (r : RegNo) (v : Int) : Answer :=
  if overflows v then .next (s.raise (.integerOverflow s.pc)) else s.deliver r (BitVec.ofInt 32 v)

end Sys2Proof.Machine
end

