-- ==== Sys2Proof/Machine/Arithmetic.lean ====
section
/-!
DEFINITION. ADD, ADDI, SUB, SLT, SLTI (`40_arithmetic.md` rules R69 to R75).
-/

namespace Sys2Proof.Machine

/-- ADD (rule R71). -/
def execAdd (rs rt rd : RegNo) (s : State) : Answer :=
  s.deliverExact rd ((s.reg rs).toInt + (s.reg rt).toInt)

/-- ADDI (rule R72). -/
def execAddi (rs rt : RegNo) (imm16 : Imm16) (s : State) : Answer :=
  s.deliverExact rt ((s.reg rs).toInt + (signedImm imm16).toInt)

/-- SUB (rule R73). -/
def execSub (rs rt rd : RegNo) (s : State) : Answer :=
  s.deliverExact rd ((s.reg rs).toInt - (s.reg rt).toInt)

/-- SLT (rule R74). -/
def execSlt (rs rt rd : RegNo) (s : State) : Answer :=
  s.deliver rd (setIfLess (s.reg rs) (s.reg rt))

/-- SLTI (rule R75). -/
def execSlti (rs rt : RegNo) (imm16 : Imm16) (s : State) : Answer :=
  s.deliver rt (setIfLess (s.reg rs) (signedImm imm16))

end Sys2Proof.Machine
end

