-- ==== Sys2Proof/Machine/ControlTransfer.lean ====
section
/-!
DEFINITION. BEQ, BNE, J, JAL, JR (`42_control_transfer.md` rules R85 to R93). The rules are total, so they also say what a
branch or jump in a delay slot does (rule R91).
-/

namespace Sys2Proof.Machine

/-- The end of BEQ and BNE (rule R85): the delay slot is next in either case. -/
def State.branch (s : State) (taken : Bool) (imm16 : Imm16) : Answer :=
  .next (s.advance (if taken then branchOffset imm16 else 4#32))

/-- BEQ (rule R85). -/
def execBeq (rs rt : RegNo) (imm16 : Imm16) (s : State) : Answer :=
  s.branch (s.reg rs == s.reg rt) imm16

/-- BNE (rule R86). -/
def execBne (rs rt : RegNo) (imm16 : Imm16) (s : State) : Answer :=
  s.branch (s.reg rs != s.reg rt) imm16

/-- J (rule R87): the region bits are those of the new `pc`, the old `npc`. -/
def execJ (target26 : Target26) (s : State) : Answer :=
  .next (s.jumpTo (regionTarget s.npc target26))

/-- JAL (rule R88, conflict C1): the link is `pc + 8` of the JAL itself. -/
def execJal (target26 : Target26) (s : State) : Answer :=
  .next ((s.setReg 31#5 (s.pc + 8#32)).jumpTo (regionTarget s.npc target26))

/-- JR (rule R89). -/
def execJr (rs : RegNo) (s : State) : Answer := .next (s.jumpTo (s.reg rs))

end Sys2Proof.Machine
end

