-- ==== Sys2Proof/Machine/LoadStore.lean ====
section
/-!
DEFINITION. LB, LW, SB, SW (`44_load_store.md` rules R100 to R105).
-/

namespace Sys2Proof.Machine

/-- LB (rule R101). -/
def execLb (rs rt : RegNo) (imm16 : Imm16) (s : State) : Answer :=
  s.orRaise ((s.memRead1 (s.ea rs imm16)).map fun b => (s.setReg rt (signedByte b)).advance 4#32)

/-- LW (rule R102). -/
def execLw (rs rt : RegNo) (imm16 : Imm16) (s : State) : Answer :=
  s.orRaise ((s.memRead4 (s.ea rs imm16)).map fun w => (s.setReg rt w).advance 4#32)

/-- SB (rule R103). -/
def execSb (rs rt : RegNo) (imm16 : Imm16) (s : State) : Answer :=
  s.orRaise ((s.memWrite1 (s.ea rs imm16) (lowByte (s.reg rt))).map fun t => t.advance 4#32)

/-- SW (rule R104). -/
def execSw (rs rt : RegNo) (imm16 : Imm16) (s : State) : Answer :=
  s.orRaise ((s.memWrite4 (s.ea rs imm16) (s.reg rt)).map fun t => t.advance 4#32)

end Sys2Proof.Machine
end

