-- ==== Sys2Proof/Machine/Logical.lean ====
section
/-!
DEFINITION. AND, ANDI, OR, ORI, XOR, XORI, NOR, LUI (`41_logical.md` rules R76 to R84).
-/

namespace Sys2Proof.Machine

/-- AND (rule R77). -/
def execAnd (rs rt rd : RegNo) (s : State) : Answer := s.deliver rd (s.reg rs &&& s.reg rt)

/-- ANDI (rule R78). -/
def execAndi (rs rt : RegNo) (imm16 : Imm16) (s : State) : Answer := s.deliver rt (s.reg rs &&& zeroImm imm16)

/-- OR (rule R79). -/
def execOr (rs rt rd : RegNo) (s : State) : Answer := s.deliver rd (s.reg rs ||| s.reg rt)

/-- ORI (rule R80). -/
def execOri (rs rt : RegNo) (imm16 : Imm16) (s : State) : Answer := s.deliver rt (s.reg rs ||| zeroImm imm16)

/-- XOR (rule R81). -/
def execXor (rs rt rd : RegNo) (s : State) : Answer := s.deliver rd (s.reg rs ^^^ s.reg rt)

/-- XORI (rule R82). -/
def execXori (rs rt : RegNo) (imm16 : Imm16) (s : State) : Answer := s.deliver rt (s.reg rs ^^^ zeroImm imm16)

/-- NOR (rule R83, conflict C5). -/
def execNor (rs rt rd : RegNo) (s : State) : Answer := s.deliver rd (~~~(s.reg rs ||| s.reg rt))

/-- LUI (rule R84). -/
def execLui (rt : RegNo) (imm16 : Imm16) (s : State) : Answer := s.deliver rt (upperImm imm16)

end Sys2Proof.Machine
end

