-- ==== Sys2Proof/Machine/MultiplyDivide.lean ====
section
/-!
DEFINITION. DIV, MULT, MFHI, MFLO (`43_multiply_divide.md` rules R94 to R99).
-/

namespace Sys2Proof.Machine

/-- The two operand pairs for which rule R95 fixes no result: division by zero, and -2^31 / -1. -/
def divUndefined (a b : Word) : Bool := b == 0#32 || (a == 0x80000000#32 && b == 0xFFFFFFFF#32)

/-- The exact quotient rounded toward zero, as a word (rule R95). -/
def quotient (a b : Word) : Word := BitVec.ofInt 32 (a.toInt.tdiv b.toInt)

/-- `a - q*b` for that quotient: 0 or the sign of `a` (rule R95). -/
def remainder (a b : Word) : Word := BitVec.ofInt 32 (a.toInt - a.toInt.tdiv b.toInt * b.toInt)

/-- DIV (rule R95): in the two corner cases `LO` and `HI` are two free values, in that order, and the instruction goes on. -/
def execDiv (rs rt : RegNo) (s : State) : Answer :=
  if divUndefined (s.reg rs) (s.reg rt) then
    .next ((((s.setLo (s.anyWord 0)).setHi (s.anyWord 1)).spend 2).advance 4#32)
  else
    .next (((s.setLo (quotient (s.reg rs) (s.reg rt))).setHi (remainder (s.reg rs) (s.reg rt))).advance 4#32)

/-- MULT (rule R96): `LO` is the low word of the product, `HI` a free value. -/
def execMult (rs rt : RegNo) (s : State) : Answer :=
  .next ((((s.setLo (s.reg rs * s.reg rt)).setHi (s.anyWord 0)).spend 1).advance 4#32)

/-- MFHI (rule R97). -/
def execMfhi (rd : RegNo) (s : State) : Answer := s.deliver rd s.hi

/-- MFLO (rule R98). -/
def execMflo (rd : RegNo) (s : State) : Answer := s.deliver rd s.lo

end Sys2Proof.Machine
end

