-- ==== Sys2Proof/Machine/Shift.lean ====
section
/-!
DEFINITION. SLL, SRL, SRA (`45_shift.md` rules R106 to R109, conflict C3).
-/

namespace Sys2Proof.Machine

/-- SLL (rule R107). -/
def execSll (rt rd : RegNo) (shamt : Shamt) (s : State) : Answer := s.deliver rd (s.reg rt <<< shamt.toNat)

/-- SRL (rule R108). -/
def execSrl (rt rd : RegNo) (shamt : Shamt) (s : State) : Answer := s.deliver rd (s.reg rt >>> shamt.toNat)

/-- SRA (rule R109). -/
def execSra (rt rd : RegNo) (shamt : Shamt) (s : State) : Answer :=
  s.deliver rd ((s.reg rt).sshiftRight shamt.toNat)

end Sys2Proof.Machine
end

