-- ==== Sys2Proof/Machine/Testing.lean ====
section
/-!
DEFINITION. ASRT, ASRTI, HALT (`46_testing.md` rules R110 to R113).
-/

namespace Sys2Proof.Machine

/-- `Assert(v1, v2)`: pass and advance, or `AssertFailed(pc, v1, v2)` (rule R110). -/
def State.assertEqual (s : State) (v1 v2 : Word) : Answer :=
  if v1 = v2 then .next (s.advance 4#32) else .next (s.raise (.assertFailed s.pc v1 v2))

/-- ASRT (rule R110). -/
def execAsrt (rs rt : RegNo) (s : State) : Answer := s.assertEqual (s.reg rt) (s.reg rs)

/-- ASRTI (rule R111). -/
def execAsrti (rt : RegNo) (imm16 : Imm16) (s : State) : Answer := s.assertEqual (s.reg rt) (signedImm imm16)

/-- HALT (rule R112). -/
def execHalt (s : State) : Answer := .next s.halt

end Sys2Proof.Machine
end

