-- ==== Sys2Proof/Machine/Dispatch.lean ====
section
/-!
DEFINITION. The meaning of every instruction, one arm per constructor (`10_state.md` rule R27 step 6).
-/

namespace Sys2Proof.Machine

def exec (i : Instr) (s : State) : Host.Outcome State Fault Refusal :=
  match i with
  | .add rs rt rd => Sys2Proof.Machine.execAdd rs rt rd s
  | .addi rs rt imm16 => Sys2Proof.Machine.execAddi rs rt imm16 s
  | .and rs rt rd => Sys2Proof.Machine.execAnd rs rt rd s
  | .andi rs rt imm16 => Sys2Proof.Machine.execAndi rs rt imm16 s
  | .beq rs rt imm16 => Sys2Proof.Machine.execBeq rs rt imm16 s
  | .bne rs rt imm16 => Sys2Proof.Machine.execBne rs rt imm16 s
  | .div rs rt => Sys2Proof.Machine.execDiv rs rt s
  | .j target26 => Sys2Proof.Machine.execJ target26 s
  | .jal target26 => Sys2Proof.Machine.execJal target26 s
  | .jr rs => Sys2Proof.Machine.execJr rs s
  | .lb rs rt imm16 => Sys2Proof.Machine.execLb rs rt imm16 s
  | .lui _ rt imm16 => Sys2Proof.Machine.execLui rt imm16 s
  | .lw rs rt imm16 => Sys2Proof.Machine.execLw rs rt imm16 s
  | .mfhi rd => Sys2Proof.Machine.execMfhi rd s
  | .mflo rd => Sys2Proof.Machine.execMflo rd s
  | .mult rs rt => Sys2Proof.Machine.execMult rs rt s
  | .nor rs rt rd => Sys2Proof.Machine.execNor rs rt rd s
  | .or rs rt rd => Sys2Proof.Machine.execOr rs rt rd s
  | .ori rs rt imm16 => Sys2Proof.Machine.execOri rs rt imm16 s
  | .sb rs rt imm16 => Sys2Proof.Machine.execSb rs rt imm16 s
  | .sll _ rt rd shamt => Sys2Proof.Machine.execSll rt rd shamt s
  | .slt rs rt rd => Sys2Proof.Machine.execSlt rs rt rd s
  | .slti rs rt imm16 => Sys2Proof.Machine.execSlti rs rt imm16 s
  | .sra _ rt rd shamt => Sys2Proof.Machine.execSra rt rd shamt s
  | .srl _ rt rd shamt => Sys2Proof.Machine.execSrl rt rd shamt s
  | .sub rs rt rd => Sys2Proof.Machine.execSub rs rt rd s
  | .sw rs rt imm16 => Sys2Proof.Machine.execSw rs rt imm16 s
  | .xor rs rt rd _ => Sys2Proof.Machine.execXor rs rt rd s
  | .xori rs rt imm16 => Sys2Proof.Machine.execXori rs rt imm16 s
  | .asrt rs rt => Sys2Proof.Machine.execAsrt rs rt s
  | .asrti rt imm16 => Sys2Proof.Machine.execAsrti rt imm16 s
  | .halt => Sys2Proof.Machine.execHalt s

end Sys2Proof.Machine
end

