-- ==== Sys2Proof/Machine/Fetch.lean ====
section
/-!
DEFINITION. What a step does before it executes an instruction (`10_state.md` rule R27, steps 1 to 5): the stopped states,
the fetch and the decoding, in the order of `60_exceptions.md` rule R117.
-/

namespace Sys2Proof.Machine

/-- The instruction at `pc`, or the fault of the fetch or of the decoding (rule R27 steps 1 to 5). -/
def State.fetchDecode (s : State) : Except Fault Instr :=
  match s.fetchWord with
  | .error f => .error f
  | .ok w =>
    match decode w with
    | .ok i => .ok i
    | .error _ => .error (.reservedInstruction s.pc w)

/-- The instruction this step executes, or what the step answers without executing one: a recorded fault is answered as a
fault, a halted processor keeps its state (rules R25, R26), and a fault of the fetch or of the decoding is raised. -/
def State.nextInstr (s : State) : Except Answer Instr :=
  match s.fault with
  | some f => .error (.fault f)
  | none =>
    if s.halted then .error (.next s)
    else
      match s.fetchDecode with
      | .ok i => .ok i
      | .error f => .error (.next (s.raise f))

end Sys2Proof.Machine
end

