-- ==== Sys2Proof/Machine/Step.lean ====
section
/-!
DEFINITION. The step (`10_state.md` rule R27), and the state in which a step runs a given instruction word.
-/

namespace Sys2Proof.Machine

/-- One step of the processor (rule R27). -/
def step (s : State) : Host.Outcome State Fault Refusal :=
  match s.nextInstr with
  | .ok i => exec i s
  | .error answer => answer

/-- `s` with the instruction word of the low `nbits` bits of `w` loaded at `pc` (log entry 9). -/
def State.withFetchWord (s : State) (nbits w : Nat) : State := s.placeInstruction (tableWord nbits w)

end Sys2Proof.Machine
end

