-- ==== Sys2Proof/Machine/Assembler.lean ====
section
/-!
DEFINITION. The assembler of `30_encoding.md` rules R64 to R68: the text of one instruction to its word, the text of an
instruction's Syntax row, and the label arithmetic of rule R67. The machine does not use it.
-/

namespace Sys2Proof.Machine

/-- Why a line is not an instruction. -/
inductive AsmError where
  /-- The first word is none of the 32 lower-case mnemonics (rules R64, R68). -/
  | unknownMnemonic
  /-- The number of operands is not the Syntax row's (rule R64). -/
  | operandCount
  /-- A register operand is not `$` and a decimal number (rule R65). -/
  | notRegister
  /-- A numeric operand is neither decimal with an optional `-` nor `0x` and hexadecimal digits (rule R66). -/
  | notNumber
  /-- A memory operand is not `offset($s)` (rule R64). -/
  | notMemory
  /-- A register number, immediate, offset, shift amount or target is out of its range (rules R65, R66). -/
  | outOfRange
deriving DecidableEq, Repr

/-! ### Reading -/

/-- The text up to the first space, and what follows that space if there is one. -/
def splitAtSpace : List Char → List Char × Option (List Char)
  | [] => ([], none)
  | c :: cs => if c = ' ' then ([], some cs) else ((c :: (splitAtSpace cs).1), (splitAtSpace cs).2)

/-- Operands separated by a comma and a space (rule R64). -/
def splitAtCommas : List Char → List (List Char)
  | [] => [[]]
  | ',' :: ' ' :: cs => [] :: splitAtCommas cs
  | c :: cs =>
    match splitAtCommas cs with
    | [] => [[c]]
    | w :: ws => (c :: w) :: ws

/-- The text up to the first `(`, and what follows it. -/
def splitAtParen : List Char → Option (List Char × List Char)
  | [] => none
  | c :: cs => if c = '(' then some ([], cs) else (splitAtParen cs).map fun (l, r) => (c :: l, r)

def decimalDigit (c : Char) : Option Nat :=
  if 48 ≤ c.toNat ∧ c.toNat ≤ 57 then some (c.toNat - 48) else none

/-- A hexadecimal digit, of either letter case. -/
def hexDigit (c : Char) : Option Nat :=
  if 48 ≤ c.toNat ∧ c.toNat ≤ 57 then some (c.toNat - 48)
  else if 97 ≤ c.toNat ∧ c.toNat ≤ 102 then some (c.toNat - 87)
  else if 65 ≤ c.toNat ∧ c.toNat ≤ 70 then some (c.toNat - 55)
  else none

/-- The digits `cs` read after the number `acc`. -/
def readDigits (base : Nat) (digit : Char → Option Nat) : Nat → List Char → Option Nat
  | acc, [] => some acc
  | acc, c :: cs =>
    match digit c with
    | some d => readDigits base digit (base * acc + d) cs
    | none => none

def readDecimal (cs : List Char) : Option Nat :=
  if cs.isEmpty then none else readDigits 10 decimalDigit 0 cs

def readHex (cs : List Char) : Option Nat :=
  if cs.isEmpty then none else readDigits 16 hexDigit 0 cs

/-- A numeric operand (rule R66). -/
def readNumber : List Char → Option Int
  | '-' :: cs => (readDecimal cs).map fun n => -(n : Int)
  | '0' :: 'x' :: cs => (readHex cs).map fun n => (n : Int)
  | cs => (readDecimal cs).map fun n => (n : Int)

/-- A numeric operand between `lo` and `hi`, as a field of `n` bits: its value modulo 2^n (rule R66). -/
def readField (n : Nat) (lo hi : Int) (cs : List Char) : Except AsmError (BitVec n) :=
  match readNumber cs with
  | none => .error .notNumber
  | some v => if lo ≤ v ∧ v ≤ hi then .ok (BitVec.ofInt n v) else .error .outOfRange

def readImm (cs : List Char) : Except AsmError Imm16 := readField 16 (-32768) 65535 cs
def readShamt (cs : List Char) : Except AsmError Shamt := readField 5 0 31 cs
def readTarget (cs : List Char) : Except AsmError Target26 := readField 26 0 (2 ^ 26 - 1) cs

/-- A register operand `$n` (rule R65). -/
def readReg : List Char → Except AsmError RegNo
  | '$' :: cs =>
    match readDecimal cs with
    | none => .error .notRegister
    | some n => if n ≤ 31 then .ok (BitVec.ofNat 5 n) else .error .outOfRange
  | _ => .error .notRegister

/-- A memory operand `offset($s)` (rule R64). -/
def readMemory (cs : List Char) : Except AsmError (Imm16 × RegNo) :=
  match splitAtParen cs with
  | none => .error .notMemory
  | some (l, r) =>
    if r.getLast? = some ')' then do
      let imm16 ← readImm l
      let rs ← readReg r.dropLast
      return (imm16, rs)
    else .error .notMemory

/-! ### The operand lists of the Syntax rows (rule R64) -/

def asmReg (ops : List (List Char)) (k : RegNo → Instr) : Except AsmError Instr :=
  match ops with
  | [x] => (readReg x).map k
  | _ => .error .operandCount

def asmRegReg (ops : List (List Char)) (k : RegNo → RegNo → Instr) : Except AsmError Instr :=
  match ops with
  | [x, y] => do return k (← readReg x) (← readReg y)
  | _ => .error .operandCount

def asmRegRegReg (ops : List (List Char)) (k : RegNo → RegNo → RegNo → Instr) : Except AsmError Instr :=
  match ops with
  | [x, y, z] => do return k (← readReg x) (← readReg y) (← readReg z)
  | _ => .error .operandCount

def asmRegRegImm (ops : List (List Char)) (k : RegNo → RegNo → Imm16 → Instr) : Except AsmError Instr :=
  match ops with
  | [x, y, z] => do return k (← readReg x) (← readReg y) (← readImm z)
  | _ => .error .operandCount

def asmRegRegShamt (ops : List (List Char)) (k : RegNo → RegNo → Shamt → Instr) : Except AsmError Instr :=
  match ops with
  | [x, y, z] => do return k (← readReg x) (← readReg y) (← readShamt z)
  | _ => .error .operandCount

def asmRegImm (ops : List (List Char)) (k : RegNo → Imm16 → Instr) : Except AsmError Instr :=
  match ops with
  | [x, y] => do return k (← readReg x) (← readImm y)
  | _ => .error .operandCount

def asmRegMemory (ops : List (List Char)) (k : RegNo → Imm16 → RegNo → Instr) : Except AsmError Instr :=
  match ops with
  | [x, y] => do
    let rt ← readReg x
    let (imm16, rs) ← readMemory y
    return k rt imm16 rs
  | _ => .error .operandCount

def asmTarget (ops : List (List Char)) (k : Target26 → Instr) : Except AsmError Instr :=
  match ops with
  | [x] => (readTarget x).map k
  | _ => .error .operandCount

/-- The operands of each Syntax row to the fields they go to (table of rule R64); the assembler writes 0 in the ignored
bits (rule R68). -/
def asmOperands (m : Mnemonic) (ops : List (List Char)) : Except AsmError Instr :=
  match m with
  | .add => asmRegRegReg ops fun d s t => .add s t d
  | .addi => asmRegRegImm ops fun t s i => .addi s t i
  | .and => asmRegRegReg ops fun d s t => .and s t d
  | .andi => asmRegRegImm ops fun t s i => .andi s t i
  | .beq => asmRegRegImm ops fun s t i => .beq s t i
  | .bne => asmRegRegImm ops fun s t i => .bne s t i
  | .div => asmRegReg ops fun s t => .div s t
  | .j => asmTarget ops fun i => .j i
  | .jal => asmTarget ops fun i => .jal i
  | .jr => asmReg ops fun s => .jr s
  | .lb => asmRegMemory ops fun t i s => .lb s t i
  | .lui => asmRegImm ops fun t i => .lui 0#5 t i
  | .lw => asmRegMemory ops fun t i s => .lw s t i
  | .mfhi => asmReg ops fun d => .mfhi d
  | .mflo => asmReg ops fun d => .mflo d
  | .mult => asmRegReg ops fun s t => .mult s t
  | .nor => asmRegRegReg ops fun d s t => .nor s t d
  | .or => asmRegRegReg ops fun d s t => .or s t d
  | .ori => asmRegRegImm ops fun t s i => .ori s t i
  | .sb => asmRegMemory ops fun t i s => .sb s t i
  | .sll => asmRegRegShamt ops fun d t h => .sll 0#5 t d h
  | .slt => asmRegRegReg ops fun d s t => .slt s t d
  | .slti => asmRegRegImm ops fun t s i => .slti s t i
  | .sra => asmRegRegShamt ops fun d t h => .sra 0#5 t d h
  | .srl => asmRegRegShamt ops fun d t h => .srl 0#5 t d h
  | .sub => asmRegRegReg ops fun d s t => .sub s t d
  | .sw => asmRegMemory ops fun t i s => .sw s t i
  | .xor => asmRegRegReg ops fun d s t => .xor s t d 0#5
  | .xori => asmRegRegImm ops fun t s i => .xori s t i
  | .asrt => asmRegReg ops fun t s => .asrt s t
  | .asrti => asmRegImm ops fun t i => .asrti t i
  | .halt => if ops.isEmpty then .ok .halt else .error .operandCount

/-- The mnemonic as the Syntax row writes it (rule R64). -/
def Mnemonic.text : Mnemonic → List Char
  | .add => "add".toList
  | .addi => "addi".toList
  | .and => "and".toList
  | .andi => "andi".toList
  | .beq => "beq".toList
  | .bne => "bne".toList
  | .div => "div".toList
  | .j => "j".toList
  | .jal => "jal".toList
  | .jr => "jr".toList
  | .lb => "lb".toList
  | .lui => "lui".toList
  | .lw => "lw".toList
  | .mfhi => "mfhi".toList
  | .mflo => "mflo".toList
  | .mult => "mult".toList
  | .nor => "nor".toList
  | .or => "or".toList
  | .ori => "ori".toList
  | .sb => "sb".toList
  | .sll => "sll".toList
  | .slt => "slt".toList
  | .slti => "slti".toList
  | .sra => "sra".toList
  | .srl => "srl".toList
  | .sub => "sub".toList
  | .sw => "sw".toList
  | .xor => "xor".toList
  | .xori => "xori".toList
  | .asrt => "asrt".toList
  | .asrti => "asrti".toList
  | .halt => "halt".toList

/-- The mnemonic with this text. -/
def readMnemonic (cs : List Char) : Option Mnemonic :=
  (opcodeRows.map OpcodeRow.mnemonic).find? fun m => Mnemonic.text m == cs

/-- The instruction of one line of text (rule R64). -/
def parseLine (line : List Char) : Except AsmError Instr :=
  match readMnemonic (splitAtSpace line).1 with
  | none => .error .unknownMnemonic
  | some m =>
    match (splitAtSpace line).2 with
    | none => asmOperands m []
    | some rest => asmOperands m (splitAtCommas rest)

/-- The assembler: one instruction of text into one word (rule R64). -/
def assemble (line : String) : Except AsmError Word := (parseLine line.toList).map encode

/-! ### Writing -/

/-- The decimal digits of `n`, before `rest`; `fuel` bounds their number. -/
def decimalBefore : Nat → Nat → List Char → List Char
  | 0, _, rest => rest
  | fuel + 1, n, rest =>
    if n / 10 = 0 then Char.ofNat (48 + n % 10) :: rest
    else decimalBefore fuel (n / 10) (Char.ofNat (48 + n % 10) :: rest)

/-- A field's value in decimal: fewer than 2^26, so at most 8 digits. -/
def decimalText (n : Nat) : List Char := decimalBefore 8 n []

def regText (r : RegNo) : List Char := '$' :: decimalText r.toNat

def fieldText {n : Nat} (v : BitVec n) : List Char := decimalText v.toNat

def memoryText (imm16 : Imm16) (rs : RegNo) : List Char := fieldText imm16 ++ '(' :: regText rs ++ [')']

/-- A mnemonic and its operands: a space, then the operands separated by a comma and a space (rule R64). -/
def lineText (m : Mnemonic) (ops : List (List Char)) : List Char :=
  match ops with
  | [] => Mnemonic.text m
  | ops => Mnemonic.text m ++ ' ' :: [',', ' '].intercalate ops

/-- The text of an instruction: its Syntax row with the operands filled in, numbers in decimal (rule R64). -/
def instrText (i : Instr) : List Char :=
  lineText i.mnemonic <|
    match i with
    | .add rs rt rd | .and rs rt rd | .nor rs rt rd | .or rs rt rd => [regText rd, regText rs, regText rt]
    | .slt rs rt rd | .sub rs rt rd | .xor rs rt rd _ => [regText rd, regText rs, regText rt]
    | .addi rs rt imm16 | .andi rs rt imm16 | .ori rs rt imm16 => [regText rt, regText rs, fieldText imm16]
    | .slti rs rt imm16 | .xori rs rt imm16 => [regText rt, regText rs, fieldText imm16]
    | .beq rs rt imm16 | .bne rs rt imm16 => [regText rs, regText rt, fieldText imm16]
    | .div rs rt | .mult rs rt => [regText rs, regText rt]
    | .j target26 | .jal target26 => [fieldText target26]
    | .jr rs => [regText rs]
    | .lb rs rt imm16 | .lw rs rt imm16 | .sb rs rt imm16 | .sw rs rt imm16 => [regText rt, memoryText imm16 rs]
    | .lui _ rt imm16 => [regText rt, fieldText imm16]
    | .mfhi rd | .mflo rd => [regText rd]
    | .sll _ rt rd shamt | .sra _ rt rd shamt | .srl _ rt rd shamt => [regText rd, regText rt, fieldText shamt]
    | .asrt rs rt => [regText rt, regText rs]
    | .asrti rt imm16 => [regText rt, fieldText imm16]
    | .halt => []

/-! ### Labels (rule R67) -/

/-- The `offset` of a BEQ or BNE at `a` to the label at `l`, when there is one: `L - (A + 4)` modulo 2^32 (`00_scope.md`
rule R5) as a signed number (log entry 15), over 4. -/
def labelOffset (a l : Word) : Option Imm16 :=
  let d : Int := (l - (a + 4#32)).toInt
  if d % 4 = 0 ∧ -32768 ≤ d / 4 ∧ d / 4 ≤ 32767 then some (BitVec.ofInt 16 (d / 4)) else none

/-- The `target` of a J or JAL at `a` to the label at `l`, when there is one. -/
def labelTarget (a l : Word) : Option Target26 :=
  if (l.extractLsb' 28 4 : BitVec 4) = (a + 4#32).extractLsb' 28 4 then some ((l >>> 2).setWidth 26) else none

end Sys2Proof.Machine
end

