-- ==== Sys2Proof/Machine/Launch.lean ====
section
/-!
DEFINITION. The launch state (`70_reset_and_hazards.md` rules R128 to R131, `10_state.md` rule R29) as a function of what the
host chooses before the first step (rule R133): the OPEN parameters, the program's words, and any value it supplies.
-/

namespace Sys2Proof.Machine

/-- What the host chooses before the first step (rules R131, R133). -/
structure Launch where
  /-- `BYTE_ORDER` and `MEM_MAP`. -/
  cfg : Config
  /-- `RESET_PC` (rule R129). -/
  resetPc : Word
  /-- The values of `x[1]` .. `x[31]`, in their slots; slot 0 is not used. A launch supplies one for each: DESIGN CHOICE,
  log entry 4. -/
  regs : Vector Word 32
  /-- The value of `HI`, which a launch supplies (log entry 4). -/
  hi : Word
  /-- The value of `LO`, which a launch supplies (log entry 4). -/
  lo : Word
  /-- The data bytes supplied, each at its address. -/
  bytes : List (Word × Byte)
  /-- The words placed in memory, each at its byte address: the program's words, and any data word supplied. -/
  words : List (Word × Word)
deriving DecidableEq, Repr

/-- The launch of a program of consecutive words from address 0, with the parameters the test vectors of
`95_test_vectors.md` use: `RESET_PC = 0`, `TEXT` the words from 0, `MAPPED` = 0x000 .. 0xFFF. The vectors give `x[1]` ..
`x[31]`, `HI` and `LO` no value (rule R29); here they are 0, the model's choice: DESIGN CHOICE, log entry 4, unsafe. -/
def Launch.ofProgram (o : ByteOrder) (ws : List Word) : Launch where
  cfg := ⟨o, ⟨[⟨0, ws.length⟩], [⟨0, 0x1000⟩]⟩⟩
  resetPc := 0
  regs := Vector.replicate 32 0
  hi := 0
  lo := 0
  bytes := []
  words := ws.zipIdx.map fun (w, n) => (BitVec.ofNat 32 (4 * n), w)

/-- The state with the given bytes written at their addresses. -/
def State.setBytes (s : State) : List (Word × Byte) → State
  | [] => s
  | (a, b) :: rest => (s.setByte a b).setBytes rest

/-- The state with the given words written at their addresses. -/
def State.setWords (s : State) : List (Word × Word) → State
  | [] => s
  | (a, w) :: rest => (s.setWord a w).setWords rest

/-- The state before the first step (rules R29, R128). -/
def State.launch (l : Launch) : State :=
  let bare : State :=
    { regs := l.regs.set 0 0#32
      hi := l.hi
      lo := l.lo
      pc := l.resetPc
      npc := l.resetPc + 4#32
      mem := []
      halted := false
      fault := none
      draws := 0
      cfg := l.cfg }
  (bare.setBytes l.bytes).setWords l.words

/-- What the host must see to (rules R43, R129): `RESET_PC` is a multiple of 4 and the word at it is in `TEXT`, every byte of
`TEXT` has a value, and every byte and word supplied lies in `MAPPED`. -/
def Launch.Proper (l : Launch) : Prop :=
  isAligned l.resetPc = true ∧
  (∀ a ∈ wordAddrs l.resetPc, (State.launch l).inText a = true) ∧
  (∀ a, (State.launch l).inText a = true → ((State.launch l).byte a).isSome = true) ∧
  (∀ ab ∈ l.bytes, (State.launch l).isMapped ab.1 = true) ∧
  (∀ aw ∈ l.words, ∀ a ∈ wordAddrs aw.1, (State.launch l).isMapped a = true)

end Sys2Proof.Machine
end

