-- ==== Sys2Proof/Safety.lean ====
section
/-!
DEFINITION. What counts as a safe run (`10_state.md` rules R25, R26, `60_exceptions.md` rule R123), and the invariant of the
model: what every launch the spec admits has, and every step keeps.
-/

namespace Sys2Proof.Machine

/-- A normal end of a run: `halted = true` with `fault = none` (rule R25). -/
def State.endedNormally (s : State) : Bool := s.halted && s.fault.isNone

/-- The first `k` steps from `s` record no fault (rule R123: a faulted state is never a normal end). -/
def safeFor : Nat → State → Bool
  | 0, s => s.fault.isNone
  | k + 1, s =>
    s.fault.isNone &&
      match step s with
      | .next t => safeFor k t
      | .fault _ => false
      | .refused _ => false

/-- The states the spec's launch states and steps can make: memory is in canonical form, only mapped addresses hold bytes
(rule R24), every byte of `TEXT` has a value (`20_memory.md` rule R43), the unused slot of register 0 holds 0, and the
processor is not both halted and faulted (rules R25, R26). -/
structure State.Valid (s : State) : Prop where
  memWf : Memory.wf s.mem = true
  onlyMapped : ∀ a, (s.byte a).isSome = true → s.isMapped a = true
  textHasValue : ∀ a, s.inText a = true → (s.byte a).isSome = true
  slotZero : s.regs[0] = 0
  oneStop : s.halted = true → s.fault = none

end Sys2Proof.Machine

namespace Sys2Proof

/-- The destination field of the 20 instructions that write one general register as their result (`10_state.md` rule R16):
the register-only results, and the loads. JAL, which writes `x[31]`, is not among them. -/
def Instr.resultReg : Instr → Option RegNo
  | .add _ _ rd | .and _ _ rd | .nor _ _ rd | .or _ _ rd | .slt _ _ rd | .sub _ _ rd | .xor _ _ rd _ => some rd
  | .sll _ _ rd _ | .sra _ _ rd _ | .srl _ _ rd _ | .mfhi rd | .mflo rd => some rd
  | .addi _ rt _ | .andi _ rt _ | .ori _ rt _ | .slti _ rt _ | .xori _ rt _ | .lui _ rt _ => some rt
  | .lb _ rt _ | .lw _ rt _ => some rt
  | .beq _ _ _ | .bne _ _ _ | .div _ _ | .j _ | .jal _ | .jr _ | .mult _ _ | .sb _ _ _ | .sw _ _ _ => none
  | .asrt _ _ | .asrti _ _ | .halt => none

/-- The five control transfer instructions (`42_control_transfer.md`). -/
def Instr.isControl : Instr → Bool
  | .beq _ _ _ | .bne _ _ _ | .j _ | .jal _ | .jr _ => true
  | .add _ _ _ | .addi _ _ _ | .and _ _ _ | .andi _ _ _ | .div _ _ | .lb _ _ _ | .lui _ _ _ | .lw _ _ _ => false
  | .mfhi _ | .mflo _ | .mult _ _ | .nor _ _ _ | .or _ _ _ | .ori _ _ _ | .sb _ _ _ | .sll _ _ _ _ => false
  | .slt _ _ _ | .slti _ _ _ | .sra _ _ _ _ | .srl _ _ _ _ | .sub _ _ _ | .sw _ _ _ | .xor _ _ _ _ => false
  | .xori _ _ _ | .asrt _ _ | .asrti _ _ | .halt => false

/-- The instructions that can raise a fault when they execute (`60_exceptions.md` rule R115), in this model, where every
register holds a value. -/
def Instr.mayRaise : Instr → Bool
  | .add _ _ _ | .addi _ _ _ | .sub _ _ _ | .lb _ _ _ | .lw _ _ _ | .sb _ _ _ | .sw _ _ _ => true
  | .asrt _ _ | .asrti _ _ => true
  | .and _ _ _ | .andi _ _ _ | .beq _ _ _ | .bne _ _ _ | .div _ _ | .j _ | .jal _ | .jr _ | .lui _ _ _ => false
  | .mfhi _ | .mflo _ | .mult _ _ | .nor _ _ _ | .or _ _ _ | .ori _ _ _ | .sll _ _ _ _ | .slt _ _ _ => false
  | .slti _ _ _ | .sra _ _ _ _ | .srl _ _ _ _ | .xor _ _ _ _ | .xori _ _ _ | .halt => false

end Sys2Proof
end

