-- ==== Sys2Proof/Certificates/Slice0/Obligations.lean ====
section
/-!
DEFINITION. The statements for the provers, from the numbered rules of the spec. A completed instruction's next state is
written out: the updated registers, and `pc` and `npc` as the rule moves them.
-/

open Sys2Proof Sys2Proof.Machine

/-! ### Encoding and assembler -/

/-- No bit of an encoding is dropped: every operand at every value comes back (`30_encoding.md` rules R51, R57). -/
def Obligations.DecodeOfEncode : Prop := ∀ i : Instr, decode (encode i) = .ok i

/-- Every accepted word has one meaning: its instruction's word is the word itself, ignored bits included. -/
def Obligations.EncodeOfDecode : Prop := ∀ (w : Word) (i : Instr), decode w = .ok i → encode i = w

/-- `30_encoding.md` rule R52: decoding tests exactly the `0` and `1` positions of the patterns (rule R57), the operation
ignores the `-` bits (and SLL's unread `s` bits), and the assembler writes 0 in them. -/
def Obligations.DecodeTestsExactlyTheFixedBits : Prop :=
  (∀ r ∈ opcodeRows, ∀ w : Word,
    w &&& r.mask = r.pattern ↔ ∃ i, decode w = .ok i ∧ i.mnemonic = r.mnemonic) ∧
  (∀ (g g' : Ignored5) (rs rt rd : RegNo) (imm16 : Imm16) (shamt : Shamt) (s : State),
    exec (.lui g rt imm16) s = exec (.lui g' rt imm16) s ∧
    exec (.sra g rt rd shamt) s = exec (.sra g' rt rd shamt) s ∧
    exec (.srl g rt rd shamt) s = exec (.srl g' rt rd shamt) s ∧
    exec (.sll g rt rd shamt) s = exec (.sll g' rt rd shamt) s ∧
    exec (.xor rs rt rd g) s = exec (.xor rs rt rd g') s) ∧
  (∀ (line : List Char) (i : Instr), parseLine line = .ok i → i.wellFormed = true)

/-- No word matches two rows of the table (`30_encoding.md` rule R57). -/
def Obligations.OpcodeRowsDoNotOverlap : Prop :=
  ∀ (w : Word) (r r' : OpcodeRow), r ∈ opcodeRows → r' ∈ opcodeRows →
    r.admits w = true → r'.admits w = true → r = r'

/-- `30_encoding.md` rule R62: the decoder rejects exactly the words no row matches, and executing one raises
`ReservedInstruction(pc, w)` and changes nothing else. -/
def Obligations.ReservedWordRaises : Prop :=
  (∀ w : Word, (∃ why, decode w = .error why) ↔ ∀ r ∈ opcodeRows, w &&& r.mask ≠ r.pattern) ∧
  (∀ (s : State) (w : Word), s.fault = none → s.halted = false → s.fetchWord = .ok w →
    (∀ r ∈ opcodeRows, w &&& r.mask ≠ r.pattern) →
    step s = .next { s with fault := some (.reservedInstruction s.pc w) })

/-- Words of `95_test_vectors.md` sections 2.1 and 2.2, at least one of each family, ignored bits set in some. -/
def Obligations.DecodesWordsOfTheSpec : Prop :=
  decode 0x00221820 = .ok (.add 1 2 3) ∧
  decode 0x2022FFFF = .ok (.addi 1 2 0xFFFF) ∧
  decode 0x00221FE6 = .ok (.xor 1 2 3 31) ∧
  decode 0x3FE11234 = .ok (.lui 31 1 0x1234) ∧
  decode 0x1420FFFD = .ok (.bne 1 0 0xFFFD) ∧
  decode 0x0C000008 = .ok (.jal 8) ∧
  decode 0x03E00008 = .ok (.jr 31) ∧
  decode 0x0085001A = .ok (.div 4 5) ∧
  decode 0x00001810 = .ok (.mfhi 3) ∧
  decode 0x80430001 = .ok (.lb 2 3 1) ∧
  decode 0xAFA1FFFC = .ok (.sw 29 1 0xFFFC) ∧
  decode 0x03E32100 = .ok (.sll 31 3 4 4) ∧
  decode 0x00011103 = .ok (.sra 0 1 2 4) ∧
  decode 0x50240000 = .ok (.asrt 1 4) ∧
  decode 0x5402FFEB = .ok (.asrti 2 0xFFEB) ∧
  decode 0x58000000 = .ok .halt ∧
  decode 0x00221FE0 = .error .fixedBits ∧
  decode 0x0000000C = .error .functCode ∧
  decode 0x5C000000 = .error .primaryOpcode

/-- The text of every instruction the assembler can write is read back as that instruction (`30_encoding.md` rules R64 to
R66, R68): no operand of a Syntax row goes to a wrong field. -/
def Obligations.AssembleOfSyntaxText : Prop :=
  ∀ i : Instr, i.wellFormed = true → parseLine (instrText i) = .ok i

/-- Lines of `95_test_vectors.md` section 2.1, and lines rules R65, R66 and R68 of `30_encoding.md` exclude. -/
def Obligations.AssemblesLinesOfTheSpec : Prop :=
  (assemble "add $3, $1, $2").toOption = some 0x00221820#32 ∧
  (assemble "addi $2, $1, -1").toOption = some 0x2022FFFF#32 ∧
  (assemble "addi $2, $1, 65535").toOption = some 0x2022FFFF#32 ∧
  (assemble "andi $2, $1, 0xFF00").toOption = some 0x3022FF00#32 ∧
  (assemble "j 0x10").toOption = some 0x08000010#32 ∧
  (assemble "sw $1, -4($29)").toOption = some 0xAFA1FFFC#32 ∧
  (assemble "sll $4, $3, 4").toOption = some 0x00032100#32 ∧
  (assemble "asrt $4, $1").toOption = some 0x50240000#32 ∧
  (assemble "halt").toOption = some 0x58000000#32 ∧
  (assemble "nop").toOption = none ∧
  (assemble "add $3, $1, $ra").toOption = none ∧
  (assemble "add $3, $1, $32").toOption = none ∧
  (assemble "addi $2, $1, 65536").toOption = none ∧
  (assemble "sll $4, $3, 32").toOption = none

/-- `30_encoding.md` rule R67: the operand a label becomes is the rule's formula, with `L - (A + 4)` modulo 2^32 as a signed
number (log entry 15); it makes the branch or jump go to the label, and a label in reach of a branch has one. -/
def Obligations.LabelsAreReached : Prop :=
  (∀ (a l : Word) (offset : Imm16), labelOffset a l = some offset ↔ (l - (a + 4)).toInt = 4 * offset.toInt) ∧
  (∀ (a l : Word) (target : Target26), labelTarget a l = some target ↔
    l.toNat / 2 ^ 28 = (a + 4).toNat / 2 ^ 28 ∧ target.toNat = l.toNat / 4 % 2 ^ 26) ∧
  (∀ (a l : Word) (offset : Imm16) (s : State) (rs rt : RegNo),
    labelOffset a l = some offset → s.npc = a + 4 →
    (s.reg rs = s.reg rt → exec (.beq rs rt offset) s = .next { s with pc := s.npc, npc := l }) ∧
    (s.reg rs ≠ s.reg rt → exec (.bne rs rt offset) s = .next { s with pc := s.npc, npc := l })) ∧
  (∀ (a l : Word) (target : Target26) (s : State),
    labelTarget a l = some target → isAligned l = true → s.npc = a + 4 →
    exec (.j target) s = .next { s with pc := s.npc, npc := l }) ∧
  (∀ a l : Word, isAligned a = true → isAligned l = true →
    -131072 ≤ (l - (a + 4)).toInt → (l - (a + 4)).toInt ≤ 131068 →
    (labelOffset a l).isSome = true)

/-! ### The step -/

/-- `10_state.md` rule R27: when the bytes at `pc` are a word of `TEXT` that decodes, the step is the execution of that
instruction and nothing around it. -/
def Obligations.StepRunsTheDecodedInstruction : Prop :=
  ∀ (s : State) (i : Instr) (b0 b1 b2 b3 : Byte),
    s.fault = none → s.halted = false → isAligned s.pc = true →
    (∀ a ∈ wordAddrs s.pc, s.inText a = true) →
    s.byte s.pc = some b0 → s.byte (s.pc + 1) = some b1 → s.byte (s.pc + 2) = some b2 →
    s.byte (s.pc + 3) = some b3 →
    decode (s.cfg.byteOrder.wordOf b0 b1 b2 b3) = .ok i →
    step s = exec i s

/-- The faults of a fetch and their order (`10_state.md` rule R27 steps 1 to 3, `60_exceptions.md` rule R117). -/
def Obligations.StepChecksTheFetchInOrder : Prop :=
  ∀ s : State, s.fault = none → s.halted = false →
    (s.pc.extractLsb' 0 2 ≠ 0#2 → step s = .next { s with fault := some (.fetchMisaligned s.pc) }) ∧
    (s.pc.extractLsb' 0 2 = 0#2 → (∃ a ∈ [s.pc, s.pc + 1, s.pc + 2, s.pc + 3], s.inText a = false) →
      step s = .next { s with fault := some (.fetchUnmapped s.pc) }) ∧
    (s.pc.extractLsb' 0 2 = 0#2 → (∀ a ∈ [s.pc, s.pc + 1, s.pc + 2, s.pc + 3], s.inText a = true) →
      (∃ a ∈ [s.pc, s.pc + 1, s.pc + 2, s.pc + 3], s.byte a = none) →
      step s = .next { s with fault := some (.uninitialisedRead s.pc) })

/-- A word the host loads at `pc` (log entry 9) is the instruction the next step runs. -/
def Obligations.LoadedWordRuns : Prop :=
  ∀ (s : State) (nbits w : Nat) (i : Instr), decodeTableWord nbits w = some i →
    step (s.withFetchWord nbits w) = exec i (s.withFetchWord nbits w)

/-- `10_state.md` rule R25. -/
def Obligations.HaltIsTheNormalEnd : Prop :=
  (State.reset.halted = false ∧ ∀ l, (State.launch l).halted = false) ∧
  (∀ s : State, exec .halt s = .next { s with halted := true }) ∧
  (∀ (i : Instr) (s t : State), exec i s = .next t → s.halted = true → t.halted = true) ∧
  (∀ s t : State, s.halted = true → s.fault = none → step s = .next t → t = s) ∧
  (∀ s : State, s.endedNormally = true ↔ s.halted = true ∧ s.fault = none)

/-- `46_testing.md` rule R112: HALT's text, its one word, its effect, and that the processor takes no further step. Every
other word of its opcode is reserved. -/
def Obligations.HaltStopsForGood : Prop :=
  (assemble "halt").toOption = some 0x58000000#32 ∧
  (∀ w : Word, decode w = .ok .halt ↔ w = 0x58000000#32) ∧
  (∀ w : Word, w.extractLsb' 26 6 = 0b010110#6 → w ≠ 0x58000000#32 → ∃ why, decode w = .error why) ∧
  (∀ s : State, s.fault = none → s.halted = false → s.fetchWord = .ok 0x58000000#32 →
    step s = .next { s with halted := true } ∧
    ∀ t, step { s with halted := true } = .next t → t = { s with halted := true })

/-- `10_state.md` rule R26. -/
def Obligations.FaultIsFinal : Prop :=
  (State.reset.fault = none ∧ ∀ l, (State.launch l).fault = none) ∧
  (∀ s : State, s.fault ≠ none → s.endedNormally = false ∧ ∀ t, step s ≠ .next t) ∧
  (∀ (i : Instr) (s t : State), exec i s = .next t → s.fault ≠ none → t.fault ≠ none) ∧
  (∀ (s : State) (f : Fault), s.raise f = { s with fault := some f })

/-- `60_exceptions.md` rule R116: a step that records a fault changes nothing else, and no step follows it. -/
def Obligations.FaultChangesNothingElse : Prop :=
  ∀ (s t : State) (f : Fault), step s = .next t → t.fault = some f →
    s.fault = none ∧ t = { s with fault := some f } ∧ ∀ u, step t ≠ .next u

/-- The model's answers from a stopped state (log entries 6 and 7): a recorded fault is the outcome, and a halted state is
its own next state. -/
def Obligations.StoppedStatesAnswer : Prop :=
  ∀ s : State,
    (∀ f, step s = .fault f ↔ s.fault = some f) ∧
    (s.fault = none → s.halted = true → step s = .next s) ∧
    (∀ r, step s ≠ .refused r)

/-- `10_state.md` rule R20: the four ways `pc` and `npc` change; nothing checks `npc` when it is written, a `pc` that is no
multiple of 4 faults when it is fetched from, and so a JR to such an address faults after the delay slot has executed. -/
def Obligations.PcChangesInFourWays : Prop :=
  (∀ (i : Instr) (s t : State), s.fault = none → exec i s = .next t →
    (t.fault ≠ none → t.pc = s.pc ∧ t.npc = s.npc) ∧
    (t.fault = none →
      match i with
      | .beq rs rt imm16 =>
        t.pc = s.npc ∧ t.npc = s.npc + (if s.reg rs = s.reg rt then imm16.signExtend 32 <<< 2 else 4)
      | .bne rs rt imm16 =>
        t.pc = s.npc ∧ t.npc = s.npc + (if s.reg rs = s.reg rt then (4 : Word) else imm16.signExtend 32 <<< 2)
      | .j target26 | .jal target26 =>
        t.pc = s.npc ∧ t.npc = (t.pc.extractLsb' 28 4 : BitVec 4) ++ target26 ++ 0#2
      | .jr rs => t.pc = s.npc ∧ t.npc = s.reg rs
      | .halt => t.pc = s.pc ∧ t.npc = s.npc
      | _ => t.pc = s.npc ∧ t.npc = s.npc + 4)) ∧
  (∀ s : State, s.fault = none → s.halted = false → s.pc.extractLsb' 0 2 ≠ 0#2 →
    step s = .next { s with fault := some (.fetchMisaligned s.pc) }) ∧
  (∀ (rs : RegNo) (slot : Instr) (s t u : State),
    exec (.jr rs) s = .next t → exec slot t = .next u → slot ≠ .halt → u.fault = none →
    u.pc = s.reg rs ∧
      (u.halted = false → (s.reg rs).extractLsb' 0 2 ≠ 0#2 →
        step u = .next { u with fault := some (.fetchMisaligned (s.reg rs)) }))

/-- `42_control_transfer.md` rule R90: after each of the five control transfers, taken or not, the instruction at the old
`npc` executes, and only after it does control reach the target. -/
def Obligations.DelaySlotExecutesNext : Prop :=
  ∀ (i : Instr) (s : State), i.isControl = true →
    ∃ t, exec i s = .next t ∧ t.pc = s.npc ∧ t.fault = s.fault ∧ t.halted = s.halted ∧
      ∀ (slot : Instr) (u : State), t.fault = none → t.halted = false → t.fetchDecode = .ok slot →
        step t = exec slot t ∧ (step t = .next u → u.fault = none → u.halted = false → u.pc = t.npc)

/-- The invariant of the model is kept by every step. -/
def Obligations.StepKeepsValid : Prop := ∀ s t : State, s.Valid → step s = .next t → t.Valid

/-- The invariant holds at reset. -/
def Obligations.ResetIsValid : Prop := State.reset.Valid

/-- The invariant holds at every launch the spec admits (`20_memory.md` rule R43, `70_reset_and_hazards.md` rule R129). -/
def Obligations.ProperLaunchIsValid : Prop := ∀ l : Launch, l.Proper → (State.launch l).Valid

/-- `20_memory.md` rule R47: a store into `TEXT` raises `TextWrite`, so no step changes a byte of `TEXT`, and a fetch from
an address gives the same word before and after; nor does a step change `BYTE_ORDER` or `MEM_MAP` (rule R35). -/
def Obligations.TextAndParametersStayFixed : Prop :=
  (∀ s t : State, step s = .next t →
    t.cfg = s.cfg ∧ (∀ a, s.inText a = true → t.byte a = s.byte a) ∧
    (∀ a w, s.wordAt a = .ok w → (∀ x ∈ wordAddrs a, s.inText x = true) → t.wordAt a = .ok w)) ∧
  (∀ (rs rt : RegNo) (imm16 : Imm16) (s : State), s.inText (s.reg rs + imm16.signExtend 32) = true →
    exec (.sb rs rt imm16) s =
      .next { s with fault := some (.textWrite (s.reg rs + imm16.signExtend 32)) }) ∧
  (∀ (rs rt : RegNo) (imm16 : Imm16) (s : State),
    isAligned (s.reg rs + imm16.signExtend 32) = true →
    (∀ a ∈ wordAddrs (s.reg rs + imm16.signExtend 32), s.isMapped a = true) →
    (∃ a ∈ wordAddrs (s.reg rs + imm16.signExtend 32), s.inText a = true) →
    exec (.sw rs rt imm16) s =
      .next { s with fault := some (.textWrite (s.reg rs + imm16.signExtend 32)) })

/-- One mode, in which every instruction executes in every state (`60_exceptions.md` rules R114, R124): HALT halts, any other
goes on to `npc` without recording a fault, or one that can raise records a fault and changes nothing else. That a recorded
fault is a next state is log entry 6; that the same holds in halted and faulted states is log entry 14. -/
def Obligations.EveryInstructionExecutes : Prop :=
  ∀ (i : Instr) (s : State), ∃ t, exec i s = .next t ∧
    (t.fault = s.fault ∧ (if i = .halt then t = { s with halted := true } else t.pc = s.npc ∧ t.halted = s.halted) ∨
     i.mayRaise = true ∧ ∃ f, t = { s with fault := some f })

/-- Which instruction records which fault, exactly when, and what the fault holds (`60_exceptions.md` rules R115, R117), in
this model, where every register holds a value (log entry 4). A condition includes that no earlier check of rule R117
holds. -/
def Obligations.FaultsByInstruction : Prop :=
  ∀ (i : Instr) (s t : State) (f : Fault), s.fault = none → exec i s = .next t →
    (t.fault = some f ↔
      match f with
      | .fetchMisaligned _ | .fetchUnmapped _ | .reservedInstruction _ _ => False
      | .integerOverflow a =>
        a = s.pc ∧
        match i with
        | .add rs rt _ =>
          (s.reg rs).toInt + (s.reg rt).toInt < -2 ^ 31 ∨ 2 ^ 31 - 1 < (s.reg rs).toInt + (s.reg rt).toInt
        | .addi rs _ imm16 => (s.reg rs).toInt + imm16.toInt < -2 ^ 31 ∨ 2 ^ 31 - 1 < (s.reg rs).toInt + imm16.toInt
        | .sub rs rt _ =>
          (s.reg rs).toInt - (s.reg rt).toInt < -2 ^ 31 ∨ 2 ^ 31 - 1 < (s.reg rs).toInt - (s.reg rt).toInt
        | _ => False
      | .misalignedAccess ea dir =>
        ea.extractLsb' 0 2 ≠ 0#2 ∧
        match i with
        | .lw rs _ imm16 => ea = s.reg rs + imm16.signExtend 32 ∧ dir = .read
        | .sw rs _ imm16 => ea = s.reg rs + imm16.signExtend 32 ∧ dir = .write
        | _ => False
      | .unmappedAccess ea dir n =>
        match i with
        | .lb rs _ imm16 =>
          ea = s.reg rs + imm16.signExtend 32 ∧ dir = .read ∧ n = .byte ∧ s.isMapped ea = false
        | .sb rs _ imm16 =>
          ea = s.reg rs + imm16.signExtend 32 ∧ dir = .write ∧ n = .byte ∧ s.isMapped ea = false
        | .lw rs _ imm16 =>
          ea = s.reg rs + imm16.signExtend 32 ∧ dir = .read ∧ n = .word ∧
            ea.extractLsb' 0 2 = 0#2 ∧ ∃ a ∈ [ea, ea + 1, ea + 2, ea + 3], s.isMapped a = false
        | .sw rs _ imm16 =>
          ea = s.reg rs + imm16.signExtend 32 ∧ dir = .write ∧ n = .word ∧
            ea.extractLsb' 0 2 = 0#2 ∧ ∃ a ∈ [ea, ea + 1, ea + 2, ea + 3], s.isMapped a = false
        | _ => False
      | .uninitialisedRead ea =>
        match i with
        | .lb rs _ imm16 => ea = s.reg rs + imm16.signExtend 32 ∧ s.isMapped ea = true ∧ s.byte ea = none
        | .lw rs _ imm16 =>
          ea = s.reg rs + imm16.signExtend 32 ∧ ea.extractLsb' 0 2 = 0#2 ∧
            (∀ a ∈ [ea, ea + 1, ea + 2, ea + 3], s.isMapped a = true) ∧
            ∃ a ∈ [ea, ea + 1, ea + 2, ea + 3], s.byte a = none
        | _ => False
      | .textWrite ea =>
        match i with
        | .sb rs _ imm16 => ea = s.reg rs + imm16.signExtend 32 ∧ s.isMapped ea = true ∧ s.inText ea = true
        | .sw rs _ imm16 =>
          ea = s.reg rs + imm16.signExtend 32 ∧ ea.extractLsb' 0 2 = 0#2 ∧
            (∀ a ∈ [ea, ea + 1, ea + 2, ea + 3], s.isMapped a = true) ∧
            ∃ a ∈ [ea, ea + 1, ea + 2, ea + 3], s.inText a = true
        | _ => False
      | .assertFailed a v1 v2 =>
        a = s.pc ∧ v1 ≠ v2 ∧
        match i with
        | .asrt rs rt => v1 = s.reg rt ∧ v2 = s.reg rs
        | .asrti rt imm16 => v1 = s.reg rt ∧ v2 = imm16.signExtend 32
        | _ => False)

/-! ### Reset and launch -/

/-- What the spec gives for reset (`10_state.md` rule R29): the values log entries 1 to 4 choose are left out. -/
def Obligations.ResetLeavesWhatTheSpecGives : Prop :=
  State.reset.halted = false ∧ State.reset.fault = none ∧ State.reset.reg 0 = 0 ∧
  State.reset.npc = State.reset.pc + 4 ∧ State.reset.pc.extractLsb' 0 2 = 0#2 ∧
  ∀ a, State.reset.byte a = none

/-- The launch state (`10_state.md` rule R29, `70_reset_and_hazards.md` rule R128) for every choice of the host. A word or a
byte supplied is in memory, unless a later one covers it (the words are placed after the bytes); a byte outside all of them
has no value. -/
def Obligations.LaunchLeavesWhatTheHostSupplies : Prop :=
  ∀ l : Launch,
    (State.launch l).pc = l.resetPc ∧ (State.launch l).npc = l.resetPc + 4 ∧
    (State.launch l).halted = false ∧ (State.launch l).fault = none ∧
    (State.launch l).reg 0 = 0 ∧ (∀ r : RegNo, r ≠ 0 → (State.launch l).reg r = l.regs[r.toNat]) ∧
    (State.launch l).hi = l.hi ∧ (State.launch l).lo = l.lo ∧ (State.launch l).cfg = l.cfg ∧
    (∀ pre a w post, l.words = pre ++ (a, w) :: post → (∀ aw ∈ post, ∀ x ∈ wordAddrs a, x ∉ wordAddrs aw.1) →
      (State.launch l).wordAt a = .ok w) ∧
    (∀ pre a b post, l.bytes = pre ++ (a, b) :: post → (∀ ab ∈ post, a ≠ ab.1) → (∀ aw ∈ l.words, a ∉ wordAddrs aw.1) →
      (State.launch l).byte a = some b) ∧
    (∀ a, (∀ ab ∈ l.bytes, a ≠ ab.1) → (∀ aw ∈ l.words, a ∉ wordAddrs aw.1) → (State.launch l).byte a = none)

/-- A program of at most 1024 words from address 0 lies in `TEXT` in the byte order chosen, and the launch is proper
(`20_memory.md` rules R34, R43). -/
def Obligations.ProgramIsPlaced : Prop :=
  ∀ (o : ByteOrder) (ws : List Word), ws.length ≤ 1024 →
    (∀ n w, ws[n]? = some w → (State.launch (Launch.ofProgram o ws)).wordAt (BitVec.ofNat 32 (4 * n)) = .ok w) ∧
    (∀ a : Word, (State.launch (Launch.ofProgram o ws)).inText a = true ↔ a.toNat < 4 * ws.length) ∧
    (ws ≠ [] → (Launch.ofProgram o ws).Proper)

/-! ### Registers -/

/-- `10_state.md` rule R15: `x[0]` reads 0 in every state, a write to it changes nothing, every other register reads what
was written, and an instruction whose destination is register 0 still does everything else. -/
def Obligations.RegisterZeroIsHardwired : Prop :=
  (∀ s : State, s.reg 0 = 0) ∧
  (∀ (s : State) (v : Word), s.setReg 0 v = s) ∧
  (∀ (s : State) (r q : RegNo) (v : Word), r ≠ 0 → (s.setReg r v).reg q = if q = r then v else s.reg q) ∧
  (∀ (i : Instr) (s t : State), i.resultReg = some 0 → s.fault = none → exec i s = .next t → t.fault = none →
    t = { s with pc := s.npc, npc := s.npc + 4 }) ∧
  (∀ (rs rt rd : RegNo) (imm16 : Imm16) (s : State) (f : Fault),
    (exec (.add rs rt rd) s = .next { s with fault := some f } → exec (.add rs rt 0) s = .next { s with fault := some f }) ∧
    (exec (.addi rs rt imm16) s = .next { s with fault := some f } → exec (.addi rs 0 imm16) s = .next { s with fault := some f }) ∧
    (exec (.sub rs rt rd) s = .next { s with fault := some f } → exec (.sub rs rt 0) s = .next { s with fault := some f }) ∧
    (exec (.lb rs rt imm16) s = .next { s with fault := some f } → exec (.lb rs 0 imm16) s = .next { s with fault := some f }) ∧
    (exec (.lw rs rt imm16) s = .next { s with fault := some f } → exec (.lw rs 0 imm16) s = .next { s with fault := some f }))

/-! ### Arithmetic and compare -/

/-- `40_arithmetic.md` rules R69, R71 to R73: when the exact signed result fits 32 bits, the destination gets the sum or
difference modulo 2^32. -/
def Obligations.AddAndSubResults : Prop :=
  ∀ (rs rt rd : RegNo) (imm16 : Imm16) (s : State),
    (-2 ^ 31 ≤ (s.reg rs).toInt + (s.reg rt).toInt → (s.reg rs).toInt + (s.reg rt).toInt ≤ 2 ^ 31 - 1 →
      exec (.add rs rt rd) s =
        .next { s.setReg rd (s.reg rs + s.reg rt) with pc := s.npc, npc := s.npc + 4 }) ∧
    (-2 ^ 31 ≤ (s.reg rs).toInt + imm16.toInt → (s.reg rs).toInt + imm16.toInt ≤ 2 ^ 31 - 1 →
      exec (.addi rs rt imm16) s =
        .next { s.setReg rt (s.reg rs + imm16.signExtend 32) with pc := s.npc, npc := s.npc + 4 }) ∧
    (-2 ^ 31 ≤ (s.reg rs).toInt - (s.reg rt).toInt → (s.reg rs).toInt - (s.reg rt).toInt ≤ 2 ^ 31 - 1 →
      exec (.sub rs rt rd) s =
        .next { s.setReg rd (s.reg rs - s.reg rt) with pc := s.npc, npc := s.npc + 4 })

/-- `40_arithmetic.md` rule R70: when the exact result does not fit, ADD, ADDI and SUB raise `IntegerOverflow(pc)` and write
nothing, whatever the destination, and the processor stops; the rule's bit tests say the same. -/
def Obligations.SignedOverflowRaises : Prop :=
  (∀ a b : Word,
    (a.toInt + b.toInt < -2 ^ 31 ∨ 2 ^ 31 - 1 < a.toInt + b.toInt ↔ a.msb = b.msb ∧ (a + b).msb ≠ a.msb) ∧
    (a.toInt - b.toInt < -2 ^ 31 ∨ 2 ^ 31 - 1 < a.toInt - b.toInt ↔ a.msb ≠ b.msb ∧ (a - b).msb ≠ a.msb)) ∧
  (∀ (rs rt rd : RegNo) (imm16 : Imm16) (s : State),
    ((s.reg rs).toInt + (s.reg rt).toInt < -2 ^ 31 ∨ 2 ^ 31 - 1 < (s.reg rs).toInt + (s.reg rt).toInt →
      exec (.add rs rt rd) s = .next { s with fault := some (.integerOverflow s.pc) }) ∧
    ((s.reg rs).toInt + imm16.toInt < -2 ^ 31 ∨ 2 ^ 31 - 1 < (s.reg rs).toInt + imm16.toInt →
      exec (.addi rs rt imm16) s = .next { s with fault := some (.integerOverflow s.pc) }) ∧
    ((s.reg rs).toInt - (s.reg rt).toInt < -2 ^ 31 ∨ 2 ^ 31 - 1 < (s.reg rs).toInt - (s.reg rt).toInt →
      exec (.sub rs rt rd) s = .next { s with fault := some (.integerOverflow s.pc) }) ∧
    ∀ u, step { s with fault := some (.integerOverflow s.pc) } ≠ .next u)

/-- SLT and SLTI (`40_arithmetic.md` rules R74, R75): 1 if less as signed numbers, 0 otherwise. -/
def Obligations.CompareResults : Prop :=
  ∀ (rs rt rd : RegNo) (imm16 : Imm16) (s : State),
    exec (.slt rs rt rd) s =
      .next { s.setReg rd (if (s.reg rs).toInt < (s.reg rt).toInt then 1 else 0) with
        pc := s.npc, npc := s.npc + 4 } ∧
    exec (.slti rs rt imm16) s =
      .next { s.setReg rt (if (s.reg rs).toInt < imm16.toInt then 1 else 0) with
        pc := s.npc, npc := s.npc + 4 }

/-! ### Logical and LUI -/

/-- `41_logical.md` rule R76: bit `k` of each result from bit `k` of the operands; the immediate's bits 31..16 are 0. -/
def Obligations.LogicalResultsBitByBit : Prop :=
  ∀ (rs rt rd : RegNo) (g : Ignored5) (imm16 : Imm16) (s : State),
    (∃ v : Word, exec (.and rs rt rd) s = .next { s.setReg rd v with pc := s.npc, npc := s.npc + 4 } ∧
      ∀ k, k < 32 → v.getLsbD k = ((s.reg rs).getLsbD k && (s.reg rt).getLsbD k)) ∧
    (∃ v : Word, exec (.or rs rt rd) s = .next { s.setReg rd v with pc := s.npc, npc := s.npc + 4 } ∧
      ∀ k, k < 32 → v.getLsbD k = ((s.reg rs).getLsbD k || (s.reg rt).getLsbD k)) ∧
    (∃ v : Word, exec (.xor rs rt rd g) s = .next { s.setReg rd v with pc := s.npc, npc := s.npc + 4 } ∧
      ∀ k, k < 32 → v.getLsbD k = ((s.reg rs).getLsbD k != (s.reg rt).getLsbD k)) ∧
    (∃ v : Word, exec (.nor rs rt rd) s = .next { s.setReg rd v with pc := s.npc, npc := s.npc + 4 } ∧
      ∀ k, k < 32 → v.getLsbD k = !((s.reg rs).getLsbD k || (s.reg rt).getLsbD k)) ∧
    (∃ v : Word, exec (.andi rs rt imm16) s = .next { s.setReg rt v with pc := s.npc, npc := s.npc + 4 } ∧
      ∀ k, k < 32 → v.getLsbD k = ((s.reg rs).getLsbD k && (decide (k < 16) && imm16.getLsbD k))) ∧
    (∃ v : Word, exec (.ori rs rt imm16) s = .next { s.setReg rt v with pc := s.npc, npc := s.npc + 4 } ∧
      ∀ k, k < 32 → v.getLsbD k = ((s.reg rs).getLsbD k || (decide (k < 16) && imm16.getLsbD k))) ∧
    (∃ v : Word, exec (.xori rs rt imm16) s = .next { s.setReg rt v with pc := s.npc, npc := s.npc + 4 } ∧
      ∀ k, k < 32 → v.getLsbD k = ((s.reg rs).getLsbD k != (decide (k < 16) && imm16.getLsbD k)))

/-- `41_logical.md` rule R84: LUI's text, its words (bits 25..21 not tested), and its effect, which ignores those bits. -/
def Obligations.LoadUpperImmediateRule : Prop :=
  (assemble "lui $1, 0x1234").toOption = some 0x3C011234#32 ∧
  (∀ (line : List Char) (i : Instr), parseLine line = .ok i → i.mnemonic = .lui → ∃ rt imm16, i = .lui 0 rt imm16) ∧
  (∀ w : Word, w &&& 0xFC000000#32 = 0x3C000000#32 ↔ ∃ g, decode w = .ok (.lui g (rtOf w) (imm16Of w))) ∧
  (∀ (g : Ignored5) (rt : RegNo) (imm16 : Imm16) (s : State),
    exec (.lui g rt imm16) s =
      .next { s.setReg rt (BitVec.ofNat 32 (imm16.toNat * 65536)) with pc := s.npc, npc := s.npc + 4 })

/-! ### Shifts -/

/-- `45_shift.md` rules R107 to R109, bit by bit as their pseudocode's comments say. -/
def Obligations.ShiftResultsBitByBit : Prop :=
  ∀ (g : Ignored5) (rt rd : RegNo) (h : Shamt) (s : State),
    (∃ v : Word, exec (.sll g rt rd h) s = .next { s.setReg rd v with pc := s.npc, npc := s.npc + 4 } ∧
      ∀ k, k < 32 → v.getLsbD k = if k < h.toNat then false else (s.reg rt).getLsbD (k - h.toNat)) ∧
    (∃ v : Word, exec (.srl g rt rd h) s = .next { s.setReg rd v with pc := s.npc, npc := s.npc + 4 } ∧
      ∀ k, k < 32 → v.getLsbD k = if k + h.toNat < 32 then (s.reg rt).getLsbD (k + h.toNat) else false) ∧
    (∃ v : Word, exec (.sra g rt rd h) s = .next { s.setReg rd v with pc := s.npc, npc := s.npc + 4 } ∧
      ∀ k, k < 32 → v.getLsbD k =
        if k + h.toNat < 32 then (s.reg rt).getLsbD (k + h.toNat) else (s.reg rt).getLsbD 31)

/-- SRA rounds toward minus infinity: the floor of the signed value over 2^shamt (`45_shift.md` rule R109). -/
def Obligations.ArithmeticShiftIsFloorDivision : Prop :=
  ∀ (g : Ignored5) (rt rd : RegNo) (h : Shamt) (s : State),
    exec (.sra g rt rd h) s =
      .next { s.setReg rd (BitVec.ofInt 32 ((s.reg rt).toInt.fdiv (2 ^ h.toNat))) with
        pc := s.npc, npc := s.npc + 4 }

/-! ### Multiply and divide -/

/-- DIV (`43_multiply_divide.md` rule R95): the quotient and remainder of the signed operands, by the laws the rule gives
them: `a = q*b + r`, `|r| < |b|`, and `r` is 0 or has the sign of `a`. -/
def Obligations.DivideResult : Prop :=
  ∀ (rs rt : RegNo) (s : State), s.reg rt ≠ 0 → ¬ (s.reg rs = 0x80000000#32 ∧ s.reg rt = 0xFFFFFFFF#32) →
    ∃ q r : Int,
      (s.reg rs).toInt = q * (s.reg rt).toInt + r ∧ |r| < |(s.reg rt).toInt| ∧
      (r = 0 ∨ (0 < r ↔ 0 < (s.reg rs).toInt)) ∧ -2 ^ 31 ≤ q ∧ q ≤ 2 ^ 31 - 1 ∧
      exec (.div rs rt) s =
        .next { s with lo := BitVec.ofInt 32 q, hi := BitVec.ofInt 32 r, pc := s.npc, npc := s.npc + 4 }

/-- DIV by zero and -2^31 / -1 (`43_multiply_divide.md` rule R95): no fault; `LO` and `HI` get two free values, each a draw
of its own, and all else is as after any DIV. The numbering of the draws is the model's own (log entry 8). -/
def Obligations.DivideCornerCases : Prop :=
  ∀ (rs rt : RegNo) (s : State),
    (s.reg rt = 0 ∨ s.reg rs = 0x80000000#32 ∧ s.reg rt = 0xFFFFFFFF#32) →
    exec (.div rs rt) s =
      .next { s with
        lo := Config.anyWord s.draws
        hi := Config.anyWord (s.draws + 1)
        draws := s.draws + 2
        pc := s.npc
        npc := s.npc + 4 }

/-- MULT (`43_multiply_divide.md` rule R96): `LO` is the low word of the product, whether the operands are read as unsigned
or as signed; `HI` gets a free value, a draw of its own. The numbering of the draws is the model's own (log entry 8). -/
def Obligations.MultiplyResult : Prop :=
  ∀ (rs rt : RegNo) (s : State),
    exec (.mult rs rt) s =
      .next { s with
        lo := BitVec.ofNat 32 ((s.reg rs).toNat * (s.reg rt).toNat)
        hi := Config.anyWord s.draws
        draws := s.draws + 1
        pc := s.npc
        npc := s.npc + 4 } ∧
    BitVec.ofNat 32 ((s.reg rs).toNat * (s.reg rt).toNat) = BitVec.ofInt 32 ((s.reg rs).toInt * (s.reg rt).toInt)

/-- MFHI and MFLO copy, and leave HI and LO (`43_multiply_divide.md` rules R97, R98). -/
def Obligations.MoveFromHiAndLo : Prop :=
  ∀ (rd : RegNo) (s : State),
    exec (.mfhi rd) s = .next { s.setReg rd s.hi with pc := s.npc, npc := s.npc + 4 } ∧
    exec (.mflo rd) s = .next { s.setReg rd s.lo with pc := s.npc, npc := s.npc + 4 }

/-- `43_multiply_divide.md` rule R99: the very next instruction reads the result of a MULT or a DIV. -/
def Obligations.ResultsReadableAtOnce : Prop :=
  ∀ (rs rt rd : RegNo) (s t : State), rd ≠ 0 →
    (exec (.mult rs rt) s = .next t →
      ∃ u, exec (.mflo rd) t = .next u ∧ u.reg rd = s.reg rs * s.reg rt) ∧
    (exec (.div rs rt) s = .next t → s.reg rt ≠ 0 →
      ¬ (s.reg rs = 0x80000000#32 ∧ s.reg rt = 0xFFFFFFFF#32) →
      (∃ u, exec (.mflo rd) t = .next u ∧ (u.reg rd).toInt = (s.reg rs).toInt.tdiv (s.reg rt).toInt) ∧
      (∃ u, exec (.mfhi rd) t = .next u ∧ (u.reg rd).toInt = (s.reg rs).toInt.tmod (s.reg rt).toInt))

/-! ### Loads and stores -/

/-- LB makes `MemRead(ea, 1)` of `20_memory.md` rule R36 at the address of rule R33, and fills the register by the sign
(`44_load_store.md` rule R101). -/
def Obligations.LoadByteReadsOneByte : Prop :=
  ∀ (rs rt : RegNo) (imm16 : Imm16) (s : State) (ea : Word), ea = s.reg rs + imm16.signExtend 32 →
    (s.isMapped ea = false →
      exec (.lb rs rt imm16) s = .next { s with fault := some (.unmappedAccess ea .read .byte) }) ∧
    (s.isMapped ea = true → s.byte ea = none →
      exec (.lb rs rt imm16) s = .next { s with fault := some (.uninitialisedRead ea) }) ∧
    (∀ b, s.isMapped ea = true → s.byte ea = some b →
      exec (.lb rs rt imm16) s =
        .next { s.setReg rt (b.signExtend 32) with pc := s.npc, npc := s.npc + 4 })

/-- LW makes `MemRead(ea, 4)` of `20_memory.md` rule R37 at the address of rule R33, its checks in that order, the word by
rule R34. -/
def Obligations.LoadWordReadsFourBytes : Prop :=
  ∀ (rs rt : RegNo) (imm16 : Imm16) (s : State) (ea : Word), ea = s.reg rs + imm16.signExtend 32 →
    (ea.extractLsb' 0 2 ≠ 0#2 →
      exec (.lw rs rt imm16) s = .next { s with fault := some (.misalignedAccess ea .read) }) ∧
    (ea.extractLsb' 0 2 = 0#2 → (∃ a ∈ [ea, ea + 1, ea + 2, ea + 3], s.isMapped a = false) →
      exec (.lw rs rt imm16) s = .next { s with fault := some (.unmappedAccess ea .read .word) }) ∧
    (ea.extractLsb' 0 2 = 0#2 → (∀ a ∈ [ea, ea + 1, ea + 2, ea + 3], s.isMapped a = true) →
      (∃ a ∈ [ea, ea + 1, ea + 2, ea + 3], s.byte a = none) →
      exec (.lw rs rt imm16) s = .next { s with fault := some (.uninitialisedRead ea) }) ∧
    (∀ b0 b1 b2 b3, ea.extractLsb' 0 2 = 0#2 → (∀ a ∈ [ea, ea + 1, ea + 2, ea + 3], s.isMapped a = true) →
      s.byte ea = some b0 → s.byte (ea + 1) = some b1 → s.byte (ea + 2) = some b2 → s.byte (ea + 3) = some b3 →
      exec (.lw rs rt imm16) s =
        .next { s.setReg rt (match s.cfg.byteOrder with
            | .big => b0 ++ b1 ++ b2 ++ b3
            | .little => b3 ++ b2 ++ b1 ++ b0) with
          pc := s.npc, npc := s.npc + 4 })

/-- SB makes `MemWrite(ea, 1, x[rt][7:0])` of `20_memory.md` rule R38 at the address of rule R33. -/
def Obligations.StoreByteWritesOneByte : Prop :=
  ∀ (rs rt : RegNo) (imm16 : Imm16) (s : State) (ea : Word), ea = s.reg rs + imm16.signExtend 32 →
    (s.isMapped ea = false →
      exec (.sb rs rt imm16) s = .next { s with fault := some (.unmappedAccess ea .write .byte) }) ∧
    (s.isMapped ea = true → s.inText ea = true →
      exec (.sb rs rt imm16) s = .next { s with fault := some (.textWrite ea) }) ∧
    (s.isMapped ea = true → s.inText ea = false →
      ∃ t, exec (.sb rs rt imm16) s = .next t ∧ t.pc = s.npc ∧ t.npc = s.npc + 4 ∧ t.fault = s.fault ∧
        ∀ a, t.byte a = if a = ea then some ((s.reg rt).extractLsb' 0 8) else s.byte a)

/-- SW makes `MemWrite(ea, 4, x[rt])` of `20_memory.md` rule R39 at the address of rule R33, its checks in that order. -/
def Obligations.StoreWordWritesFourBytes : Prop :=
  ∀ (rs rt : RegNo) (imm16 : Imm16) (s : State) (ea v : Word),
    ea = s.reg rs + imm16.signExtend 32 → v = s.reg rt →
    (ea.extractLsb' 0 2 ≠ 0#2 →
      exec (.sw rs rt imm16) s = .next { s with fault := some (.misalignedAccess ea .write) }) ∧
    (ea.extractLsb' 0 2 = 0#2 → (∃ a ∈ [ea, ea + 1, ea + 2, ea + 3], s.isMapped a = false) →
      exec (.sw rs rt imm16) s = .next { s with fault := some (.unmappedAccess ea .write .word) }) ∧
    (ea.extractLsb' 0 2 = 0#2 → (∀ a ∈ [ea, ea + 1, ea + 2, ea + 3], s.isMapped a = true) →
      (∃ a ∈ [ea, ea + 1, ea + 2, ea + 3], s.inText a = true) →
      exec (.sw rs rt imm16) s = .next { s with fault := some (.textWrite ea) }) ∧
    (ea.extractLsb' 0 2 = 0#2 → (∀ a ∈ [ea, ea + 1, ea + 2, ea + 3], s.isMapped a = true) →
      (∀ a ∈ [ea, ea + 1, ea + 2, ea + 3], s.inText a = false) →
      ∃ t, exec (.sw rs rt imm16) s = .next t ∧ t.pc = s.npc ∧ t.npc = s.npc + 4 ∧ t.fault = s.fault ∧
        (s.cfg.byteOrder = .big →
          t.byte ea = some (v.extractLsb' 24 8) ∧ t.byte (ea + 1) = some (v.extractLsb' 16 8) ∧
          t.byte (ea + 2) = some (v.extractLsb' 8 8) ∧ t.byte (ea + 3) = some (v.extractLsb' 0 8)) ∧
        (s.cfg.byteOrder = .little →
          t.byte ea = some (v.extractLsb' 0 8) ∧ t.byte (ea + 1) = some (v.extractLsb' 8 8) ∧
          t.byte (ea + 2) = some (v.extractLsb' 16 8) ∧ t.byte (ea + 3) = some (v.extractLsb' 24 8)) ∧
        ∀ a, a ∉ [ea, ea + 1, ea + 2, ea + 3] → t.byte a = s.byte a)

/-- `44_load_store.md` rule R105: a load of the same width at the same address returns what the store stored, in either
byte order; for a byte, `sext_8` of the register's low byte, which is the register only in -128 .. 127. -/
def Obligations.StoreThenLoadReturnsTheValue : Prop :=
  ∀ (rs rt rs' rt' : RegNo) (imm16 imm16' : Imm16) (s t : State),
    s.fault = none → t.fault = none → s.reg rs + imm16.signExtend 32 = t.reg rs' + imm16'.signExtend 32 →
    (exec (.sw rs rt imm16) s = .next t →
      exec (.lw rs' rt' imm16') t = .next { t.setReg rt' (s.reg rt) with pc := t.npc, npc := t.npc + 4 }) ∧
    (exec (.sb rs rt imm16) s = .next t →
      exec (.lb rs' rt' imm16') t =
        .next { t.setReg rt' (((s.reg rt).extractLsb' 0 8).signExtend 32) with pc := t.npc, npc := t.npc + 4 }) ∧
    ((((s.reg rt).extractLsb' 0 8).signExtend 32 = s.reg rt) ↔
      -128 ≤ (s.reg rt).toInt ∧ (s.reg rt).toInt ≤ 127)

/-- `20_memory.md` rule R35: no instruction changes BYTE_ORDER; a byte read of a word just stored gives the byte rule R34
places there (for the rule's word 0x12345678, the bytes it names), and a word read of a byte just stored gives the word
with that one byte replaced. -/
def Obligations.MixedWidthFollowsByteOrder : Prop :=
  (∀ (i : Instr) (s t : State), exec i s = .next t → t.cfg.byteOrder = s.cfg.byteOrder) ∧
  (∀ (rs rt rs' rt' : RegNo) (imm16 imm16' : Imm16) (s t : State) (k : Fin 4),
    s.fault = none → t.fault = none → exec (.sw rs rt imm16) s = .next t →
    t.reg rs' + imm16'.signExtend 32 = s.reg rs + imm16.signExtend 32 + BitVec.ofNat 32 k.val →
    (∃ b : Byte,
      exec (.lb rs' rt' imm16') t = .next { t.setReg rt' (b.signExtend 32) with pc := t.npc, npc := t.npc + 4 } ∧
      (s.cfg.byteOrder = .big → b = (s.reg rt).extractLsb' (24 - 8 * k.val) 8) ∧
      (s.cfg.byteOrder = .little → b = (s.reg rt).extractLsb' (8 * k.val) 8) ∧
      (s.reg rt = 0x12345678#32 → k = 0 → b = if s.cfg.byteOrder = .big then 0x12#8 else 0x78#8) ∧
      (s.reg rt = 0x12345678#32 → k = 3 → b = if s.cfg.byteOrder = .big then 0x78#8 else 0x12#8))) ∧
  (∀ (rs rt rs' rt' : RegNo) (imm16 imm16' : Imm16) (s t : State) (k : Fin 4) (a w : Word),
    s.fault = none → t.fault = none → exec (.sb rs rt imm16) s = .next t →
    a = t.reg rs' + imm16'.signExtend 32 → s.reg rs + imm16.signExtend 32 = a + BitVec.ofNat 32 k.val →
    isAligned a = true → (∀ x ∈ wordAddrs a, s.isMapped x = true) → s.wordAt a = .ok w →
    ∃ w' : Word,
      exec (.lw rs' rt' imm16') t = .next { t.setReg rt' w' with pc := t.npc, npc := t.npc + 4 } ∧
      ∀ j : Fin 4,
        (s.cfg.byteOrder = .big → w'.extractLsb' (24 - 8 * j.val) 8 =
          if j = k then (s.reg rt).extractLsb' 0 8 else w.extractLsb' (24 - 8 * j.val) 8) ∧
        (s.cfg.byteOrder = .little → w'.extractLsb' (8 * j.val) 8 =
          if j = k then (s.reg rt).extractLsb' 0 8 else w.extractLsb' (8 * j.val) 8))

/-! ### Control transfer -/

/-- BEQ and BNE (`42_control_transfer.md` rules R85, R86): the target is the delay slot's address plus four times the signed
offset, modulo 2^32. -/
def Obligations.BranchResults : Prop :=
  ∀ (rs rt : RegNo) (imm16 : Imm16) (s : State),
    exec (.beq rs rt imm16) s =
      .next { s with
        pc := s.npc
        npc := if s.reg rs = s.reg rt then BitVec.ofInt 32 (s.npc.toNat + 4 * imm16.toInt) else s.npc + 4 } ∧
    exec (.bne rs rt imm16) s =
      .next { s with
        pc := s.npc
        npc := if s.reg rs = s.reg rt then s.npc + 4 else BitVec.ofInt 32 (s.npc.toNat + 4 * imm16.toInt) }

/-- J, JAL and JR (`42_control_transfer.md` rules R87 to R89): the target of J and JAL is the word `target26` of the 2^28-byte
region of the delay slot, and JAL's link is its own address plus 8. -/
def Obligations.JumpResults : Prop :=
  ∀ (target26 : Target26) (rs : RegNo) (s : State),
    exec (.j target26) s =
      .next { s with
        pc := s.npc
        npc := BitVec.ofNat 32 (s.npc.toNat / 2 ^ 28 * 2 ^ 28 + 4 * target26.toNat) } ∧
    exec (.jal target26) s =
      .next { s.setReg 31 (s.pc + 8) with
        pc := s.npc
        npc := BitVec.ofNat 32 (s.npc.toNat / 2 ^ 28 * 2 ^ 28 + 4 * target26.toNat) } ∧
    exec (.jr rs) s = .next { s with pc := s.npc, npc := s.reg rs }

/-- `42_control_transfer.md` rule R92: the targets of BEQ, BNE, J and JAL are multiples of 4 whenever `npc` was; JR takes any
value, and the fault comes at the fetch. -/
def Obligations.TargetsAreAligned : Prop :=
  (∀ (i : Instr) (s t : State),
    (i.mnemonic = .beq ∨ i.mnemonic = .bne ∨ i.mnemonic = .j ∨ i.mnemonic = .jal) →
    exec i s = .next t → s.npc.toNat % 4 = 0 → t.npc.toNat % 4 = 0) ∧
  (∀ (rs : RegNo) (s : State), exec (.jr rs) s = .next { s with pc := s.npc, npc := s.reg rs }) ∧
  (∀ s : State, s.fault = none → s.halted = false → s.pc.toNat % 4 ≠ 0 →
    step s = .next { s with fault := some (.fetchMisaligned s.pc) })

/-- `42_control_transfer.md` rule R91: a jump X to `t1` with a jump Y in its delay slot: after both, one instruction at X's
target executes and control goes on at Y's; a JAL there links to its own address plus 8. -/
def Obligations.JumpInADelaySlot : Prop :=
  ∀ (x y : Target26) (rs rt : RegNo) (imm16 : Imm16) (s t : State), exec (.j x) s = .next t →
    (∃ u, exec (.j y) t = .next u ∧ u.pc = t.npc ∧ u.npc = (t.npc.extractLsb' 28 4 : BitVec 4) ++ y ++ 0#2) ∧
    (∃ u, exec (.jal y) t = .next u ∧ u.pc = t.npc ∧ u.reg 31 = s.npc + 8 ∧
      u.npc = (t.npc.extractLsb' 28 4 : BitVec 4) ++ y ++ 0#2) ∧
    (∃ u, exec (.jr rs) t = .next u ∧ u.pc = t.npc ∧ u.npc = s.reg rs) ∧
    (s.reg rs = s.reg rt →
      ∃ u, exec (.beq rs rt imm16) t = .next u ∧ u.pc = t.npc ∧ u.npc = t.npc + imm16.signExtend 32 <<< 2)

/-! ### Testing instructions -/

/-- ASRT and ASRTI (`46_testing.md` rules R110, R111): equal values pass and only advance; different values record
`AssertFailed` with `pc` and the two values, and change nothing else. -/
def Obligations.AssertResults : Prop :=
  ∀ (rs rt : RegNo) (imm16 : Imm16) (s : State),
    (s.reg rt = s.reg rs → exec (.asrt rs rt) s = .next { s with pc := s.npc, npc := s.npc + 4 }) ∧
    (s.reg rt ≠ s.reg rs →
      exec (.asrt rs rt) s = .next { s with fault := some (.assertFailed s.pc (s.reg rt) (s.reg rs)) }) ∧
    ((s.reg rt).toInt = imm16.toInt → exec (.asrti rt imm16) s = .next { s with pc := s.npc, npc := s.npc + 4 }) ∧
    ((s.reg rt).toInt ≠ imm16.toInt →
      exec (.asrti rt imm16) s =
        .next { s with fault := some (.assertFailed s.pc (s.reg rt) (imm16.signExtend 32)) })

/-! ### Frames -/

/-- The 18 register-only results (ADD, ADDI, AND, ANDI, LUI, MFHI, MFLO, NOR, OR, ORI, SLL, SLT, SLTI, SRA, SRL, SUB, XOR,
XORI) and the loads LB, LW leave everything but their destination, `pc` and `npc`; ADD, ADDI, SUB, LB and LW may record a
fault instead of their effect (`10_state.md` rule R16). -/
def Obligations.RegisterResultFrame : Prop :=
  ∀ (i : Instr) (d : RegNo) (s t : State), i.resultReg = some d → exec i s = .next t →
    (∀ r, r ≠ d → t.reg r = s.reg r) ∧ t.hi = s.hi ∧ t.lo = s.lo ∧ (∀ a, t.byte a = s.byte a) ∧
    t.halted = s.halted ∧ t.cfg = s.cfg ∧ t.draws = s.draws ∧
    (t.fault = s.fault ∨ i.mayRaise = true ∧ ∃ f, t = { s with fault := some f })

/-- MULT and DIV leave every general register, memory, `halted`, `fault` and the parameters (`10_state.md` rules R16, R17). -/
def Obligations.MultiplyDivideFrame : Prop :=
  ∀ (i : Instr) (s t : State), (i.mnemonic = .mult ∨ i.mnemonic = .div) → exec i s = .next t →
    (∀ r, t.reg r = s.reg r) ∧ (∀ a, t.byte a = s.byte a) ∧ t.halted = s.halted ∧ t.fault = s.fault ∧
    t.cfg = s.cfg

/-- SB and SW leave every register, and every byte outside the one or four stored at `s.ea rs imm16`; they may record a
fault, and then change nothing else (`44_load_store.md` rules R100, R103, R104). -/
def Obligations.StoreFrame : Prop :=
  ∀ (rs rt : RegNo) (imm16 : Imm16) (s t : State),
    (exec (.sb rs rt imm16) s = .next t →
      (∀ a, a ≠ s.ea rs imm16 → t.byte a = s.byte a) ∧
      (∀ r, t.reg r = s.reg r) ∧ t.hi = s.hi ∧ t.lo = s.lo ∧ t.halted = s.halted ∧ t.cfg = s.cfg ∧
      t.draws = s.draws ∧ (t.fault = s.fault ∨ ∃ f, t = { s with fault := some f })) ∧
    (exec (.sw rs rt imm16) s = .next t →
      (∀ a, a ∉ wordAddrs (s.ea rs imm16) → t.byte a = s.byte a) ∧
      (∀ r, t.reg r = s.reg r) ∧ t.hi = s.hi ∧ t.lo = s.lo ∧ t.halted = s.halted ∧ t.cfg = s.cfg ∧
      t.draws = s.draws ∧ (t.fault = s.fault ∨ ∃ f, t = { s with fault := some f }))

/-- BEQ, BNE, J and JR leave everything but `pc` and `npc`; JAL writes `x[31]` as well (`10_state.md` rule R16). -/
def Obligations.ControlTransferFrame : Prop :=
  ∀ (i : Instr) (s t : State), i.isControl = true → exec i s = .next t →
    (∀ r, (i.mnemonic = .jal → r ≠ 31) → t.reg r = s.reg r) ∧ t.hi = s.hi ∧ t.lo = s.lo ∧
    (∀ a, t.byte a = s.byte a) ∧ t.halted = s.halted ∧ t.fault = s.fault ∧ t.cfg = s.cfg ∧ t.draws = s.draws

/-- The testing instructions read and write no memory, write no general register and do not touch `HI` or `LO`
(`46_testing.md` rule R113); only HALT sets `halted`, and only ASRT and ASRTI record a fault. -/
def Obligations.TestingFrame : Prop :=
  ∀ (i : Instr) (s t : State), (i.mnemonic = .asrt ∨ i.mnemonic = .asrti ∨ i.mnemonic = .halt) →
    exec i s = .next t →
    (∀ r, t.reg r = s.reg r) ∧ t.hi = s.hi ∧ t.lo = s.lo ∧ (∀ a, t.byte a = s.byte a) ∧
    t.cfg = s.cfg ∧ t.draws = s.draws ∧
    (i.mnemonic = .halt → t.halted = true ∧ t.fault = s.fault ∧ t.pc = s.pc ∧ t.npc = s.npc) ∧
    (i.mnemonic ≠ .halt → t.halted = s.halted ∧ (t.fault = s.fault ∨ ∃ f, t = { s with fault := some f }))
end

