-- ==== Sys2Proof/Laws/Decode.lean ====
section
/-!
SUPPORT. The fields of an encoded word, and a word as its fields (`30_encoding.md` rules R50, R51).
-/

namespace Sys2Proof

/-! ### Fields of a word of the R layout -/

section
variable (rs rt rd : RegNo) (shamt : Shamt) (funct : BitVec 6)

@[simp] theorem opcodeOf_packR : opcodeOf (packR rs rt rd shamt funct) = 0x00#6 := by
  unfold opcodeOf packR; ext k hk
  simp only [BitVec.getElem_extractLsb', BitVec.getLsbD_append]
  interval_cases k <;> simp

@[simp] theorem rsOf_packR : rsOf (packR rs rt rd shamt funct) = rs := by
  unfold rsOf packR; ext k hk
  simp only [BitVec.getElem_extractLsb', BitVec.getLsbD_append]
  interval_cases k <;> simp

@[simp] theorem rtOf_packR : rtOf (packR rs rt rd shamt funct) = rt := by
  unfold rtOf packR; ext k hk
  simp only [BitVec.getElem_extractLsb', BitVec.getLsbD_append]
  interval_cases k <;> simp

@[simp] theorem rdOf_packR : rdOf (packR rs rt rd shamt funct) = rd := by
  unfold rdOf packR; ext k hk
  simp only [BitVec.getElem_extractLsb', BitVec.getLsbD_append]
  interval_cases k <;> simp

@[simp] theorem shamtOf_packR : shamtOf (packR rs rt rd shamt funct) = shamt := by
  unfold shamtOf packR; ext k hk
  simp only [BitVec.getElem_extractLsb', BitVec.getLsbD_append]
  interval_cases k <;> simp

@[simp] theorem functOf_packR : functOf (packR rs rt rd shamt funct) = funct := by
  unfold functOf packR; ext k hk
  simp only [BitVec.getElem_extractLsb', BitVec.getLsbD_append]
  interval_cases k <;> simp

end

/-! ### Fields of a word of the I layout -/

section
variable (opcode : BitVec 6) (rs rt : RegNo) (imm16 : Imm16)

@[simp] theorem opcodeOf_packI : opcodeOf (packI opcode rs rt imm16) = opcode := by
  unfold opcodeOf packI; ext k hk
  simp only [BitVec.getElem_extractLsb', BitVec.getLsbD_append]
  interval_cases k <;> simp

@[simp] theorem rsOf_packI : rsOf (packI opcode rs rt imm16) = rs := by
  unfold rsOf packI; ext k hk
  simp only [BitVec.getElem_extractLsb', BitVec.getLsbD_append]
  interval_cases k <;> simp

@[simp] theorem rtOf_packI : rtOf (packI opcode rs rt imm16) = rt := by
  unfold rtOf packI; ext k hk
  simp only [BitVec.getElem_extractLsb', BitVec.getLsbD_append]
  interval_cases k <;> simp

@[simp] theorem imm16Of_packI : imm16Of (packI opcode rs rt imm16) = imm16 := by
  unfold imm16Of packI; ext k hk
  simp only [BitVec.getElem_extractLsb', BitVec.getLsbD_append]
  interval_cases k <;> simp

end

/-! ### Fields of a word of the J layout -/

section
variable (opcode : BitVec 6) (target26 : Target26)

@[simp] theorem opcodeOf_packJ : opcodeOf (packJ opcode target26) = opcode := by
  unfold opcodeOf packJ; ext k hk
  simp only [BitVec.getElem_extractLsb', BitVec.getLsbD_append]
  interval_cases k <;> simp

@[simp] theorem target26Of_packJ : target26Of (packJ opcode target26) = target26 := by
  unfold target26Of packJ; ext k hk
  simp only [BitVec.getElem_extractLsb', BitVec.getLsbD_append]
  interval_cases k <;> simp

end

/-! ### A word is its fields -/

theorem packR_fields {w : Word} (h : opcodeOf w = 0x00#6) :
    packR (rsOf w) (rtOf w) (rdOf w) (shamtOf w) (functOf w) = w := by
  unfold packR; rw [← h]
  unfold opcodeOf rsOf rtOf rdOf shamtOf functOf
  apply BitVec.eq_of_getLsbD_eq
  intro k hk
  simp only [BitVec.getLsbD_append, BitVec.getLsbD_extractLsb']
  interval_cases k <;> simp

theorem packI_fields (w : Word) : packI (opcodeOf w) (rsOf w) (rtOf w) (imm16Of w) = w := by
  unfold packI opcodeOf rsOf rtOf imm16Of
  apply BitVec.eq_of_getLsbD_eq
  intro k hk
  simp only [BitVec.getLsbD_append, BitVec.getLsbD_extractLsb']
  interval_cases k <;> simp

theorem packJ_fields (w : Word) : packJ (opcodeOf w) (target26Of w) = w := by
  unfold packJ opcodeOf target26Of
  apply BitVec.eq_of_getLsbD_eq
  intro k hk
  simp only [BitVec.getLsbD_append, BitVec.getLsbD_extractLsb']
  interval_cases k <;> simp

/-! ### The bits of a word that a mask of the opcode table keeps (rule R57) -/

theorem packR_mask_funct (rs rt rd : RegNo) (shamt : Shamt) (funct : BitVec 6) :
    packR rs rt rd shamt funct &&& 0xFC00003F#32 = (0#26 ++ funct : Word) := by
  unfold packR
  apply BitVec.eq_of_getLsbD_eq
  intro k hk
  simp only [BitVec.getLsbD_and, BitVec.getLsbD_append]
  interval_cases k <;> simp

theorem packR_mask_shamt_funct (rs rt rd : RegNo) (shamt : Shamt) (funct : BitVec 6) :
    packR rs rt rd shamt funct &&& 0xFC0007FF#32 = (0#21 ++ shamt ++ funct : Word) := by
  unfold packR
  apply BitVec.eq_of_getLsbD_eq
  intro k hk
  simp only [BitVec.getLsbD_and, BitVec.getLsbD_append]
  interval_cases k <;> simp

theorem packR_mask_rd_shamt_funct (rs rt rd : RegNo) (shamt : Shamt) (funct : BitVec 6) :
    packR rs rt rd shamt funct &&& 0xFC00FFFF#32 = (0#16 ++ rd ++ shamt ++ funct : Word) := by
  unfold packR
  apply BitVec.eq_of_getLsbD_eq
  intro k hk
  simp only [BitVec.getLsbD_and, BitVec.getLsbD_append]
  interval_cases k <;> simp

theorem packR_mask_rt_rd_shamt_funct (rs rt rd : RegNo) (shamt : Shamt) (funct : BitVec 6) :
    packR rs rt rd shamt funct &&& 0xFC1FFFFF#32 = (0#11 ++ rt ++ rd ++ shamt ++ funct : Word) := by
  unfold packR
  apply BitVec.eq_of_getLsbD_eq
  intro k hk
  simp only [BitVec.getLsbD_and, BitVec.getLsbD_append]
  interval_cases k <;> simp

theorem packR_mask_rs_rt_shamt_funct (rs rt rd : RegNo) (shamt : Shamt) (funct : BitVec 6) :
    packR rs rt rd shamt funct &&& 0xFFFF07FF#32 = (0#6 ++ rs ++ rt ++ 0#5 ++ shamt ++ funct : Word) := by
  unfold packR
  apply BitVec.eq_of_getLsbD_eq
  intro k hk
  simp only [BitVec.getLsbD_and, BitVec.getLsbD_append]
  interval_cases k <;> simp

theorem packI_mask_opcode (opcode : BitVec 6) (rs rt : RegNo) (imm16 : Imm16) :
    packI opcode rs rt imm16 &&& 0xFC000000#32 = (opcode ++ 0#26 : Word) := by
  unfold packI
  apply BitVec.eq_of_getLsbD_eq
  intro k hk
  simp only [BitVec.getLsbD_and, BitVec.getLsbD_append]
  interval_cases k <;> simp

theorem packI_mask_opcode_rs (opcode : BitVec 6) (rs rt : RegNo) (imm16 : Imm16) :
    packI opcode rs rt imm16 &&& 0xFFE00000#32 = (opcode ++ rs ++ 0#21 : Word) := by
  unfold packI
  apply BitVec.eq_of_getLsbD_eq
  intro k hk
  simp only [BitVec.getLsbD_and, BitVec.getLsbD_append]
  interval_cases k <;> simp

theorem packI_mask_opcode_imm16 (opcode : BitVec 6) (rs rt : RegNo) (imm16 : Imm16) :
    packI opcode rs rt imm16 &&& 0xFC00FFFF#32 = (opcode ++ 0#10 ++ imm16 : Word) := by
  unfold packI
  apply BitVec.eq_of_getLsbD_eq
  intro k hk
  simp only [BitVec.getLsbD_and, BitVec.getLsbD_append]
  interval_cases k <;> simp

theorem packJ_mask_opcode (opcode : BitVec 6) (target26 : Target26) :
    packJ opcode target26 &&& 0xFC000000#32 = (opcode ++ 0#26 : Word) := by
  unfold packJ
  apply BitVec.eq_of_getLsbD_eq
  intro k hk
  simp only [BitVec.getLsbD_and, BitVec.getLsbD_append]
  interval_cases k <;> simp

end Sys2Proof
end

