-- ==== Sys2Proof/Laws/State.lean ====
section
/-!
SUPPORT. The small lemmas of the state's updates: one per field per update, so that no later proof unfolds a record update.
-/

namespace Sys2Proof.Machine

variable (s : State)

@[simp] theorem State.setLo_regs (v : Word) : (s.setLo v).regs = s.regs := rfl
@[simp] theorem State.setLo_hi (v : Word) : (s.setLo v).hi = s.hi := rfl
@[simp] theorem State.setLo_lo (v : Word) : (s.setLo v).lo = v := rfl
@[simp] theorem State.setLo_pc (v : Word) : (s.setLo v).pc = s.pc := rfl
@[simp] theorem State.setLo_npc (v : Word) : (s.setLo v).npc = s.npc := rfl
@[simp] theorem State.setLo_mem (v : Word) : (s.setLo v).mem = s.mem := rfl
@[simp] theorem State.setLo_halted (v : Word) : (s.setLo v).halted = s.halted := rfl
@[simp] theorem State.setLo_fault (v : Word) : (s.setLo v).fault = s.fault := rfl
@[simp] theorem State.setLo_draws (v : Word) : (s.setLo v).draws = s.draws := rfl
@[simp] theorem State.setLo_cfg (v : Word) : (s.setLo v).cfg = s.cfg := rfl

@[simp] theorem State.setHi_regs (v : Word) : (s.setHi v).regs = s.regs := rfl
@[simp] theorem State.setHi_hi (v : Word) : (s.setHi v).hi = v := rfl
@[simp] theorem State.setHi_lo (v : Word) : (s.setHi v).lo = s.lo := rfl
@[simp] theorem State.setHi_pc (v : Word) : (s.setHi v).pc = s.pc := rfl
@[simp] theorem State.setHi_npc (v : Word) : (s.setHi v).npc = s.npc := rfl
@[simp] theorem State.setHi_mem (v : Word) : (s.setHi v).mem = s.mem := rfl
@[simp] theorem State.setHi_halted (v : Word) : (s.setHi v).halted = s.halted := rfl
@[simp] theorem State.setHi_fault (v : Word) : (s.setHi v).fault = s.fault := rfl
@[simp] theorem State.setHi_draws (v : Word) : (s.setHi v).draws = s.draws := rfl
@[simp] theorem State.setHi_cfg (v : Word) : (s.setHi v).cfg = s.cfg := rfl

@[simp] theorem State.advance_regs (k : Word) : (s.advance k).regs = s.regs := rfl
@[simp] theorem State.advance_hi (k : Word) : (s.advance k).hi = s.hi := rfl
@[simp] theorem State.advance_lo (k : Word) : (s.advance k).lo = s.lo := rfl
@[simp] theorem State.advance_pc (k : Word) : (s.advance k).pc = s.npc := rfl
@[simp] theorem State.advance_npc (k : Word) : (s.advance k).npc = s.npc + k := rfl
@[simp] theorem State.advance_mem (k : Word) : (s.advance k).mem = s.mem := rfl
@[simp] theorem State.advance_halted (k : Word) : (s.advance k).halted = s.halted := rfl
@[simp] theorem State.advance_fault (k : Word) : (s.advance k).fault = s.fault := rfl
@[simp] theorem State.advance_draws (k : Word) : (s.advance k).draws = s.draws := rfl
@[simp] theorem State.advance_cfg (k : Word) : (s.advance k).cfg = s.cfg := rfl

@[simp] theorem State.jumpTo_regs (a : Word) : (s.jumpTo a).regs = s.regs := rfl
@[simp] theorem State.jumpTo_hi (a : Word) : (s.jumpTo a).hi = s.hi := rfl
@[simp] theorem State.jumpTo_lo (a : Word) : (s.jumpTo a).lo = s.lo := rfl
@[simp] theorem State.jumpTo_pc (a : Word) : (s.jumpTo a).pc = s.npc := rfl
@[simp] theorem State.jumpTo_npc (a : Word) : (s.jumpTo a).npc = a := rfl
@[simp] theorem State.jumpTo_mem (a : Word) : (s.jumpTo a).mem = s.mem := rfl
@[simp] theorem State.jumpTo_halted (a : Word) : (s.jumpTo a).halted = s.halted := rfl
@[simp] theorem State.jumpTo_fault (a : Word) : (s.jumpTo a).fault = s.fault := rfl
@[simp] theorem State.jumpTo_draws (a : Word) : (s.jumpTo a).draws = s.draws := rfl
@[simp] theorem State.jumpTo_cfg (a : Word) : (s.jumpTo a).cfg = s.cfg := rfl

@[simp] theorem State.raise_regs (f : Fault) : (s.raise f).regs = s.regs := rfl
@[simp] theorem State.raise_hi (f : Fault) : (s.raise f).hi = s.hi := rfl
@[simp] theorem State.raise_lo (f : Fault) : (s.raise f).lo = s.lo := rfl
@[simp] theorem State.raise_pc (f : Fault) : (s.raise f).pc = s.pc := rfl
@[simp] theorem State.raise_npc (f : Fault) : (s.raise f).npc = s.npc := rfl
@[simp] theorem State.raise_mem (f : Fault) : (s.raise f).mem = s.mem := rfl
@[simp] theorem State.raise_halted (f : Fault) : (s.raise f).halted = s.halted := rfl
@[simp] theorem State.raise_fault (f : Fault) : (s.raise f).fault = some f := rfl
@[simp] theorem State.raise_draws (f : Fault) : (s.raise f).draws = s.draws := rfl
@[simp] theorem State.raise_cfg (f : Fault) : (s.raise f).cfg = s.cfg := rfl

@[simp] theorem State.halt_regs : (s.halt).regs = s.regs := rfl
@[simp] theorem State.halt_hi : (s.halt).hi = s.hi := rfl
@[simp] theorem State.halt_lo : (s.halt).lo = s.lo := rfl
@[simp] theorem State.halt_pc : (s.halt).pc = s.pc := rfl
@[simp] theorem State.halt_npc : (s.halt).npc = s.npc := rfl
@[simp] theorem State.halt_mem : (s.halt).mem = s.mem := rfl
@[simp] theorem State.halt_halted : (s.halt).halted = true := rfl
@[simp] theorem State.halt_fault : (s.halt).fault = s.fault := rfl
@[simp] theorem State.halt_draws : (s.halt).draws = s.draws := rfl
@[simp] theorem State.halt_cfg : (s.halt).cfg = s.cfg := rfl

@[simp] theorem State.spend_regs (k : Nat) : (s.spend k).regs = s.regs := rfl
@[simp] theorem State.spend_hi (k : Nat) : (s.spend k).hi = s.hi := rfl
@[simp] theorem State.spend_lo (k : Nat) : (s.spend k).lo = s.lo := rfl
@[simp] theorem State.spend_pc (k : Nat) : (s.spend k).pc = s.pc := rfl
@[simp] theorem State.spend_npc (k : Nat) : (s.spend k).npc = s.npc := rfl
@[simp] theorem State.spend_mem (k : Nat) : (s.spend k).mem = s.mem := rfl
@[simp] theorem State.spend_halted (k : Nat) : (s.spend k).halted = s.halted := rfl
@[simp] theorem State.spend_fault (k : Nat) : (s.spend k).fault = s.fault := rfl
@[simp] theorem State.spend_draws (k : Nat) : (s.spend k).draws = s.draws + k := rfl
@[simp] theorem State.spend_cfg (k : Nat) : (s.spend k).cfg = s.cfg := rfl

@[simp] theorem State.setByte_regs (a : Word) (b : Byte) : (s.setByte a b).regs = s.regs := rfl
@[simp] theorem State.setByte_hi (a : Word) (b : Byte) : (s.setByte a b).hi = s.hi := rfl
@[simp] theorem State.setByte_lo (a : Word) (b : Byte) : (s.setByte a b).lo = s.lo := rfl
@[simp] theorem State.setByte_pc (a : Word) (b : Byte) : (s.setByte a b).pc = s.pc := rfl
@[simp] theorem State.setByte_npc (a : Word) (b : Byte) : (s.setByte a b).npc = s.npc := rfl
@[simp] theorem State.setByte_mem (a : Word) (b : Byte) : (s.setByte a b).mem = Memory.write s.mem a.toNat b := rfl
@[simp] theorem State.setByte_halted (a : Word) (b : Byte) : (s.setByte a b).halted = s.halted := rfl
@[simp] theorem State.setByte_fault (a : Word) (b : Byte) : (s.setByte a b).fault = s.fault := rfl
@[simp] theorem State.setByte_draws (a : Word) (b : Byte) : (s.setByte a b).draws = s.draws := rfl
@[simp] theorem State.setByte_cfg (a : Word) (b : Byte) : (s.setByte a b).cfg = s.cfg := rfl

@[simp] theorem State.setReg_hi (r : RegNo) (v : Word) : (s.setReg r v).hi = s.hi := by
  unfold State.setReg; split <;> rfl
@[simp] theorem State.setReg_lo (r : RegNo) (v : Word) : (s.setReg r v).lo = s.lo := by
  unfold State.setReg; split <;> rfl
@[simp] theorem State.setReg_pc (r : RegNo) (v : Word) : (s.setReg r v).pc = s.pc := by
  unfold State.setReg; split <;> rfl
@[simp] theorem State.setReg_npc (r : RegNo) (v : Word) : (s.setReg r v).npc = s.npc := by
  unfold State.setReg; split <;> rfl
@[simp] theorem State.setReg_mem (r : RegNo) (v : Word) : (s.setReg r v).mem = s.mem := by
  unfold State.setReg; split <;> rfl
@[simp] theorem State.setReg_halted (r : RegNo) (v : Word) : (s.setReg r v).halted = s.halted := by
  unfold State.setReg; split <;> rfl
@[simp] theorem State.setReg_fault (r : RegNo) (v : Word) : (s.setReg r v).fault = s.fault := by
  unfold State.setReg; split <;> rfl
@[simp] theorem State.setReg_draws (r : RegNo) (v : Word) : (s.setReg r v).draws = s.draws := by
  unfold State.setReg; split <;> rfl
@[simp] theorem State.setReg_cfg (r : RegNo) (v : Word) : (s.setReg r v).cfg = s.cfg := by
  unfold State.setReg; split <;> rfl

@[simp] theorem State.setWord_regs (a w : Word) : (s.setWord a w).regs = s.regs := rfl
@[simp] theorem State.setWord_hi (a w : Word) : (s.setWord a w).hi = s.hi := rfl
@[simp] theorem State.setWord_lo (a w : Word) : (s.setWord a w).lo = s.lo := rfl
@[simp] theorem State.setWord_pc (a w : Word) : (s.setWord a w).pc = s.pc := rfl
@[simp] theorem State.setWord_npc (a w : Word) : (s.setWord a w).npc = s.npc := rfl
@[simp] theorem State.setWord_halted (a w : Word) : (s.setWord a w).halted = s.halted := rfl
@[simp] theorem State.setWord_fault (a w : Word) : (s.setWord a w).fault = s.fault := rfl
@[simp] theorem State.setWord_draws (a w : Word) : (s.setWord a w).draws = s.draws := rfl
@[simp] theorem State.setWord_cfg (a w : Word) : (s.setWord a w).cfg = s.cfg := rfl

/-! ### Reads after updates that do not touch what is read -/

@[simp] theorem State.setLo_reg (v : Word) (r : RegNo) : (s.setLo v).reg r = s.reg r := rfl
@[simp] theorem State.setLo_byte (v : Word) (x : Word) : (s.setLo v).byte x = s.byte x := rfl
@[simp] theorem State.setLo_inText (v : Word) (x : Word) : (s.setLo v).inText x = s.inText x := rfl
@[simp] theorem State.setLo_isMapped (v : Word) (x : Word) : (s.setLo v).isMapped x = s.isMapped x := rfl
@[simp] theorem State.setHi_reg (v : Word) (r : RegNo) : (s.setHi v).reg r = s.reg r := rfl
@[simp] theorem State.setHi_byte (v : Word) (x : Word) : (s.setHi v).byte x = s.byte x := rfl
@[simp] theorem State.setHi_inText (v : Word) (x : Word) : (s.setHi v).inText x = s.inText x := rfl
@[simp] theorem State.setHi_isMapped (v : Word) (x : Word) : (s.setHi v).isMapped x = s.isMapped x := rfl
@[simp] theorem State.advance_reg (k : Word) (r : RegNo) : (s.advance k).reg r = s.reg r := rfl
@[simp] theorem State.advance_byte (k : Word) (x : Word) : (s.advance k).byte x = s.byte x := rfl
@[simp] theorem State.advance_inText (k : Word) (x : Word) : (s.advance k).inText x = s.inText x := rfl
@[simp] theorem State.advance_isMapped (k : Word) (x : Word) : (s.advance k).isMapped x = s.isMapped x := rfl
@[simp] theorem State.jumpTo_reg (a : Word) (r : RegNo) : (s.jumpTo a).reg r = s.reg r := rfl
@[simp] theorem State.jumpTo_byte (a : Word) (x : Word) : (s.jumpTo a).byte x = s.byte x := rfl
@[simp] theorem State.jumpTo_inText (a : Word) (x : Word) : (s.jumpTo a).inText x = s.inText x := rfl
@[simp] theorem State.jumpTo_isMapped (a : Word) (x : Word) : (s.jumpTo a).isMapped x = s.isMapped x := rfl
@[simp] theorem State.raise_reg (f : Fault) (r : RegNo) : (s.raise f).reg r = s.reg r := rfl
@[simp] theorem State.raise_byte (f : Fault) (x : Word) : (s.raise f).byte x = s.byte x := rfl
@[simp] theorem State.raise_inText (f : Fault) (x : Word) : (s.raise f).inText x = s.inText x := rfl
@[simp] theorem State.raise_isMapped (f : Fault) (x : Word) : (s.raise f).isMapped x = s.isMapped x := rfl
@[simp] theorem State.halt_reg (r : RegNo) : (s.halt).reg r = s.reg r := rfl
@[simp] theorem State.halt_byte (x : Word) : (s.halt).byte x = s.byte x := rfl
@[simp] theorem State.halt_inText (x : Word) : (s.halt).inText x = s.inText x := rfl
@[simp] theorem State.halt_isMapped (x : Word) : (s.halt).isMapped x = s.isMapped x := rfl
@[simp] theorem State.spend_reg (k : Nat) (r : RegNo) : (s.spend k).reg r = s.reg r := rfl
@[simp] theorem State.spend_byte (k : Nat) (x : Word) : (s.spend k).byte x = s.byte x := rfl
@[simp] theorem State.spend_inText (k : Nat) (x : Word) : (s.spend k).inText x = s.inText x := rfl
@[simp] theorem State.spend_isMapped (k : Nat) (x : Word) : (s.spend k).isMapped x = s.isMapped x := rfl
@[simp] theorem State.setByte_reg (a : Word) (b : Byte) (r : RegNo) : (s.setByte a b).reg r = s.reg r := rfl
@[simp] theorem State.setByte_inText (a : Word) (b : Byte) (x : Word) : (s.setByte a b).inText x = s.inText x := rfl
@[simp] theorem State.setByte_isMapped (a : Word) (b : Byte) (x : Word) : (s.setByte a b).isMapped x = s.isMapped x := rfl
@[simp] theorem State.setReg_byte (r : RegNo) (v x : Word) : (s.setReg r v).byte x = s.byte x := by
  unfold State.byte; rw [State.setReg_mem]
@[simp] theorem State.setReg_inText (r : RegNo) (v x : Word) : (s.setReg r v).inText x = s.inText x := by
  unfold State.inText; rw [State.setReg_cfg]
@[simp] theorem State.setReg_isMapped (r : RegNo) (v x : Word) : (s.setReg r v).isMapped x = s.isMapped x := by
  unfold State.isMapped; rw [State.setReg_inText, State.setReg_cfg]
@[simp] theorem State.setWord_reg (a w : Word) (r : RegNo) : (s.setWord a w).reg r = s.reg r := rfl
@[simp] theorem State.setWord_inText (a w x : Word) : (s.setWord a w).inText x = s.inText x := rfl
@[simp] theorem State.setWord_isMapped (a w x : Word) : (s.setWord a w).isMapped x = s.isMapped x := rfl

/-! ### Registers (`10_state.md` rule R15) -/

@[simp] theorem State.reg_zero : s.reg 0#5 = 0#32 := rfl

@[simp] theorem State.setReg_zero (v : Word) : s.setReg 0#5 v = s := rfl

theorem State.setReg_reg_same {r : RegNo} (h : r ≠ 0#5) (v : Word) : (s.setReg r v).reg r = v := by
  simp [State.setReg, State.reg, h]

theorem State.setReg_reg_other {r q : RegNo} (h : q ≠ r) (v : Word) : (s.setReg r v).reg q = s.reg q := by
  have hn : r.toNat ≠ q.toNat := fun e => h (BitVec.eq_of_toNat_eq e.symm)
  unfold State.setReg State.reg
  split
  · rfl
  · split
    · rfl
    · simp [hn]

/-- What a register reads after a write: the value written, 0 for register 0, or the value before. -/
theorem State.setReg_reg (r q : RegNo) (v : Word) :
    (s.setReg r v).reg q = if q = 0#5 then 0#32 else if q = r then v else s.reg q := by
  by_cases hq : q = 0#5
  · subst hq; simp
  · by_cases h : q = r
    · subst h; simp [hq, s.setReg_reg_same hq v]
    · simp [hq, h, s.setReg_reg_other h v]

/-- The slot of register 0 is written by no register write. -/
@[simp] theorem State.setReg_slotZero (r : RegNo) (v : Word) : (s.setReg r v).regs[0] = s.regs[0] := by
  unfold State.setReg
  split
  · rfl
  · next h =>
    have hn : r.toNat ≠ 0 := fun e => h (BitVec.eq_of_toNat_eq e)
    simp [hn]

end Sys2Proof.Machine
end

