-- ==== Sys2Proof/Laws/Memory.lean ====
section
/-!
SUPPORT. Memory as data: a read after a write, the canonical form, and the bytes and the word a store leaves
(`20_memory.md` rules R34, R38, R39).
-/

namespace Sys2Proof.Machine

/-! ### The list of cells -/

@[simp] theorem Memory.read_write_same (m : Memory) (a : Nat) (b : Byte) : Memory.read (Memory.write m a b) a = some b := by
  induction m with
  | nil => simp [Memory.write, Memory.read]
  | cons c m ih =>
    unfold Memory.write
    split
    · simp [Memory.read]
    · split
      · simp [Memory.read]
      · next h => simp [Memory.read, Ne.symm h, ih]

theorem Memory.read_write_other (m : Memory) {a x : Nat} (b : Byte) (h : x ≠ a) :
    Memory.read (Memory.write m a b) x = Memory.read m x := by
  induction m with
  | nil => simp [Memory.write, Memory.read, Ne.symm h]
  | cons c m ih =>
    unfold Memory.write
    split
    · simp [Memory.read, Ne.symm h]
    · split
      · next e => simp [Memory.read, ← e, Ne.symm h]
      · simp [Memory.read, ih]

theorem Memory.all_lt_write {m : Memory} {a lo : Nat} (b : Byte) (hlo : lo < a)
    (h : m.all (fun c => decide (lo < c.1)) = true) :
    (Memory.write m a b).all (fun c => decide (lo < c.1)) = true := by
  induction m with
  | nil => simpa [Memory.write] using hlo
  | cons c m ih =>
    simp only [List.all_cons, Bool.and_eq_true, decide_eq_true_eq] at h
    unfold Memory.write
    split
    · simp only [List.all_cons, Bool.and_eq_true, decide_eq_true_eq]; exact ⟨hlo, h.1, h.2⟩
    · split
      · simp only [List.all_cons, Bool.and_eq_true, decide_eq_true_eq]; exact ⟨hlo, h.2⟩
      · simp only [List.all_cons, Bool.and_eq_true, decide_eq_true_eq]; exact ⟨h.1, ih h.2⟩

/-- A write keeps the canonical form. -/
theorem Memory.wf_write {m : Memory} {a : Nat} (b : Byte) (ha : a < 2 ^ 32) (h : Memory.wf m = true) :
    Memory.wf (Memory.write m a b) = true := by
  induction m with
  | nil => simpa [Memory.write, Memory.wf] using ha
  | cons c m ih =>
    simp only [Memory.wf, Bool.and_eq_true, decide_eq_true_eq] at h
    obtain ⟨⟨hc, hall⟩, hm⟩ := h
    unfold Memory.write
    split
    · next hlt =>
      simp only [Memory.wf, List.all_cons, Bool.and_eq_true, decide_eq_true_eq]
      refine ⟨⟨ha, hlt, ?_⟩, ⟨hc, hall⟩, hm⟩
      simp only [List.all_eq_true, decide_eq_true_eq] at hall ⊢
      exact fun x hx => Nat.lt_trans hlt (hall x hx)
    · split
      · next e =>
        subst e
        simp only [Memory.wf, Bool.and_eq_true, decide_eq_true_eq]
        exact ⟨⟨ha, hall⟩, hm⟩
      · next hge hne =>
        simp only [Memory.wf, Bool.and_eq_true, decide_eq_true_eq]
        exact ⟨⟨hc, Memory.all_lt_write b (by omega) hall⟩, ih hm⟩

/-! ### Bytes and words of the state -/

variable (s : State)

theorem State.setByte_byte (a x : Word) (b : Byte) :
    (s.setByte a b).byte x = if x = a then some b else s.byte x := by
  by_cases h : x = a
  · subst h; simp [State.byte, State.setByte]
  · have hn : x.toNat ≠ a.toNat := fun e => h (BitVec.eq_of_toNat_eq e)
    simp [State.byte, State.setByte, h, Memory.read_write_other _ _ hn]

theorem State.setByte_memWf {s : State} (a : Word) (b : Byte) (h : Memory.wf s.mem = true) :
    Memory.wf (s.setByte a b).mem = true :=
  Memory.wf_write b a.isLt h

theorem State.setWord_memWf {s : State} (a w : Word) (h : Memory.wf s.mem = true) :
    Memory.wf (s.setWord a w).mem = true :=
  State.setByte_memWf _ _ (State.setByte_memWf _ _ (State.setByte_memWf _ _ (State.setByte_memWf _ _ h)))

/-- The memory of reset is in canonical form. -/
@[simp] theorem State.reset_memWf : Memory.wf State.reset.mem = true := rfl

/-- The memory after a word store: byte `k` of the word at `a + k`, and every other byte as before (rule R39). -/
theorem State.setWord_byte (a w x : Word) :
    (s.setWord a w).byte x =
      if x = a + 3#32 then some (s.cfg.byteOrder.byteOf w 3)
      else if x = a + 2#32 then some (s.cfg.byteOrder.byteOf w 2)
      else if x = a + 1#32 then some (s.cfg.byteOrder.byteOf w 1)
      else if x = a then some (s.cfg.byteOrder.byteOf w 0)
      else s.byte x := by
  simp only [State.setWord, State.setByte_byte]

theorem State.setWord_byte_other {a x : Word} (w : Word) (h : x ∉ wordAddrs a) :
    (s.setWord a w).byte x = s.byte x := by
  simp only [wordAddrs, List.mem_cons, List.not_mem_nil, or_false, not_or] at h
  simp [State.setWord_byte, h]

theorem State.setWord_byte_isSome {s : State} {x : Word} (a w : Word) (h : (s.byte x).isSome = true) :
    ((s.setWord a w).byte x).isSome = true := by
  rw [State.setWord_byte]; repeat' split
  all_goals first | rfl | exact h

/-- The four addresses of a word are different. -/
theorem wordAddrs_distinct (a : Word) :
    a ≠ a + 1#32 ∧ a ≠ a + 2#32 ∧ a ≠ a + 3#32 ∧ a + 1#32 ≠ a + 2#32 ∧ a + 1#32 ≠ a + 3#32 ∧ a + 2#32 ≠ a + 3#32 := by
  refine ⟨?_, ?_, ?_, ?_, ?_, ?_⟩ <;> bv_omega

/-- The bytes of a word make the word again, in either order (rule R34). -/
@[simp] theorem wordOf_byteOf (o : ByteOrder) (w : Word) :
    o.wordOf (o.byteOf w 0) (o.byteOf w 1) (o.byteOf w 2) (o.byteOf w 3) = w := by
  cases o <;>
  · apply BitVec.eq_of_getLsbD_eq
    intro k hk
    simp only [ByteOrder.wordOf, ByteOrder.byteOf, BitVec.getLsbD_append, BitVec.getLsbD_extractLsb']
    rcases Nat.lt_or_ge k 8 with h | h
    · simp [h]
    · rcases Nat.lt_or_ge k 16 with h2 | h2
      · simp [show ¬ k < 8 by omega, show k - 8 < 8 by omega, show 8 + (k - 8) = k by omega]
      · rcases Nat.lt_or_ge k 24 with h3 | h3
        · simp [show ¬ k < 8 by omega, show ¬ k - 8 < 8 by omega, show k - 8 - 8 < 8 by omega,
            show 16 + (k - 8 - 8) = k by omega]
        · simp [show ¬ k < 8 by omega, show ¬ k - 8 < 8 by omega, show ¬ k - 8 - 8 < 8 by omega,
            show k - 8 - 8 - 8 < 8 by omega, show 24 + (k - 8 - 8 - 8) = k by omega]

/-- A word stored is the word read there (rules R34, R39). -/
@[simp] theorem State.setWord_wordAt (a w : Word) : (s.setWord a w).wordAt a = .ok w := by
  obtain ⟨h1, h2, h3, h4, h5, h6⟩ := wordAddrs_distinct a
  simp [State.wordAt, State.setWord_byte, h1, h2, h3, h4, h5, h6]

end Sys2Proof.Machine
end

