-- ==== Sys2Proof/Laws/Ops.lean ====
section
/-!
SUPPORT. One lemma per shared operation that says everything it can answer, for later proofs to cite instead of unfolding it.
-/

namespace Sys2Proof.Machine

variable {s t : State}

/-! ### Ends of instructions -/

theorem next_inj {x y : State} : (Host.Outcome.next x : Answer) = .next y ↔ x = y :=
  ⟨fun h => Host.Outcome.next.inj h, congrArg _⟩

/-- `orRaise` completes with the state made, or raises the fault in the state before (`60_exceptions.md` rule R116). -/
theorem State.orRaise_next {r : Except Fault State} :
    s.orRaise r = .next t ↔ r = .ok t ∨ ∃ f, r = .error f ∧ t = s.raise f := by
  cases r <;> simp [State.orRaise, eq_comm]

theorem State.deliver_next {r : RegNo} {v : Word} :
    s.deliver r v = .next t ↔ t = (s.setReg r v).advance 4#32 := by
  simp [State.deliver, eq_comm]

/-- An exact result is delivered, or overflow is raised (`40_arithmetic.md` rule R70). -/
theorem State.deliverExact_next {r : RegNo} {v : Int} :
    s.deliverExact r v = .next t ↔
      (overflows v = false ∧ t = (s.setReg r (BitVec.ofInt 32 v)).advance 4#32) ∨
      (overflows v = true ∧ t = s.raise (.integerOverflow s.pc)) := by
  cases h : overflows v <;> simp [State.deliverExact, State.deliver, h, eq_comm]

/-- Overflow is a result outside -2^31 .. 2^31 - 1 (`40_arithmetic.md` rule R70). -/
theorem overflows_eq_false {v : Int} : overflows v = false ↔ -2 ^ 31 ≤ v ∧ v ≤ 2 ^ 31 - 1 := by
  simp [overflows]

theorem overflows_eq_true {v : Int} : overflows v = true ↔ v < -2 ^ 31 ∨ 2 ^ 31 - 1 < v := by
  simp [overflows]

theorem State.assertEqual_next {v1 v2 : Word} :
    s.assertEqual v1 v2 = .next t ↔
      (v1 = v2 ∧ t = s.advance 4#32) ∨ (v1 ≠ v2 ∧ t = s.raise (.assertFailed s.pc v1 v2)) := by
  by_cases h : v1 = v2 <;> simp [State.assertEqual, h, eq_comm]

theorem State.branch_next {taken : Bool} {imm16 : Imm16} :
    s.branch taken imm16 = .next t ↔ t = s.advance (if taken then branchOffset imm16 else 4#32) := by
  simp [State.branch, eq_comm]

/-! ### Memory primitives -/

/-- A byte read (`20_memory.md` rule R36). -/
theorem State.memRead1_ok {a : Word} {b : Byte} :
    s.memRead1 a = .ok b ↔ s.isMapped a = true ∧ s.byte a = some b := by
  unfold State.memRead1
  cases s.isMapped a <;> cases s.byte a <;> simp

/-- The faults of a byte read, in order (rule R36). -/
theorem State.memRead1_error {a : Word} {f : Fault} :
    s.memRead1 a = .error f ↔
      (s.isMapped a = false ∧ f = .unmappedAccess a .read .byte) ∨
      (s.isMapped a = true ∧ s.byte a = none ∧ f = .uninitialisedRead a) := by
  unfold State.memRead1
  cases s.isMapped a <;> cases s.byte a <;> simp [eq_comm]

/-- The word at `a`, when its four bytes have values (rule R34). -/
theorem State.wordAt_ok {a w : Word} :
    s.wordAt a = .ok w ↔
      ∃ b0 b1 b2 b3, s.byte a = some b0 ∧ s.byte (a + 1#32) = some b1 ∧ s.byte (a + 2#32) = some b2 ∧
        s.byte (a + 3#32) = some b3 ∧ s.cfg.byteOrder.wordOf b0 b1 b2 b3 = w := by
  unfold State.wordAt
  cases s.byte a <;> cases s.byte (a + 1#32) <;> cases s.byte (a + 2#32) <;> cases s.byte (a + 3#32) <;> simp

theorem State.wordAt_error {a : Word} {f : Fault} :
    s.wordAt a = .error f ↔ (∃ x ∈ wordAddrs a, s.byte x = none) ∧ f = .uninitialisedRead a := by
  unfold State.wordAt wordAddrs
  cases h0 : s.byte a <;> cases h1 : s.byte (a + 1#32) <;> cases h2 : s.byte (a + 2#32) <;>
    cases h3 : s.byte (a + 3#32) <;> simp [h0, h1, h2, h3, eq_comm]

/-- A word read (rule R37). -/
theorem State.memRead4_ok {a w : Word} :
    s.memRead4 a = .ok w ↔
      isAligned a = true ∧ (wordAddrs a).all s.isMapped = true ∧ s.wordAt a = .ok w := by
  unfold State.memRead4
  cases isAligned a <;> cases (wordAddrs a).all s.isMapped <;> simp

/-- The faults of a word read, in order (rule R37). -/
theorem State.memRead4_error {a : Word} {f : Fault} :
    s.memRead4 a = .error f ↔
      (isAligned a = false ∧ f = .misalignedAccess a .read) ∨
      (isAligned a = true ∧ (wordAddrs a).all s.isMapped = false ∧ f = .unmappedAccess a .read .word) ∨
      (isAligned a = true ∧ (wordAddrs a).all s.isMapped = true ∧ s.wordAt a = .error f) := by
  unfold State.memRead4
  cases isAligned a <;> cases (wordAddrs a).all s.isMapped <;> simp [eq_comm]

/-- A byte write (rule R38). -/
theorem State.memWrite1_ok {a : Word} {v : Byte} :
    s.memWrite1 a v = .ok t ↔ s.isMapped a = true ∧ s.inText a = false ∧ t = s.setByte a v := by
  unfold State.memWrite1
  cases s.isMapped a <;> cases s.inText a <;> simp [eq_comm]

/-- The faults of a byte write, in order (rule R38). -/
theorem State.memWrite1_error {a : Word} {v : Byte} {f : Fault} :
    s.memWrite1 a v = .error f ↔
      (s.isMapped a = false ∧ f = .unmappedAccess a .write .byte) ∨
      (s.isMapped a = true ∧ s.inText a = true ∧ f = .textWrite a) := by
  unfold State.memWrite1
  cases s.isMapped a <;> cases s.inText a <;> simp [eq_comm]

/-- A word write (rule R39). -/
theorem State.memWrite4_ok {a v : Word} :
    s.memWrite4 a v = .ok t ↔
      isAligned a = true ∧ (wordAddrs a).all s.isMapped = true ∧ (wordAddrs a).any s.inText = false ∧
        t = s.setWord a v := by
  unfold State.memWrite4
  cases isAligned a <;> cases (wordAddrs a).all s.isMapped <;> cases (wordAddrs a).any s.inText <;> simp [eq_comm]

/-- The faults of a word write, in order (rule R39). -/
theorem State.memWrite4_error {a v : Word} {f : Fault} :
    s.memWrite4 a v = .error f ↔
      (isAligned a = false ∧ f = .misalignedAccess a .write) ∨
      (isAligned a = true ∧ (wordAddrs a).all s.isMapped = false ∧ f = .unmappedAccess a .write .word) ∨
      (isAligned a = true ∧ (wordAddrs a).all s.isMapped = true ∧ (wordAddrs a).any s.inText = true ∧
        f = .textWrite a) := by
  unfold State.memWrite4
  cases isAligned a <;> cases (wordAddrs a).all s.isMapped <;> cases (wordAddrs a).any s.inText <;> simp [eq_comm]

/-! ### Fetch and decode -/

/-- A fetch (`10_state.md` rule R27 steps 1 to 3). -/
theorem State.fetchWord_ok {w : Word} :
    s.fetchWord = .ok w ↔
      isAligned s.pc = true ∧ (wordAddrs s.pc).all s.inText = true ∧ s.wordAt s.pc = .ok w := by
  unfold State.fetchWord
  cases isAligned s.pc <;> cases (wordAddrs s.pc).all s.inText <;> simp

theorem State.fetchDecode_ok {i : Instr} :
    s.fetchDecode = .ok i ↔ ∃ w, s.fetchWord = .ok w ∧ decode w = .ok i := by
  unfold State.fetchDecode
  cases s.fetchWord with
  | error f => simp
  | ok w => cases h : decode w <;> simp [h]

theorem State.fetchDecode_error {f : Fault} :
    s.fetchDecode = .error f ↔
      s.fetchWord = .error f ∨
      ∃ w r, s.fetchWord = .ok w ∧ decode w = .error r ∧ f = .reservedInstruction s.pc w := by
  unfold State.fetchDecode
  cases s.fetchWord with
  | error g => simp
  | ok w => cases h : decode w <;> simp [h, eq_comm]

/-- The running processor executes the instruction it decodes, or raises (rule R27). -/
theorem State.nextInstr_running (hf : s.fault = none) (hh : s.halted = false) :
    s.nextInstr =
      match s.fetchDecode with
      | .ok i => .ok i
      | .error f => .error (.next (s.raise f)) := by
  unfold State.nextInstr
  rw [hf, hh]
  cases s.fetchDecode <;> rfl

theorem State.nextInstr_ok {i : Instr} :
    s.nextInstr = .ok i ↔ s.fault = none ∧ s.halted = false ∧ s.fetchDecode = .ok i := by
  unfold State.nextInstr
  cases hf : s.fault with
  | some f => simp
  | none =>
    cases s.halted with
    | true => simp
    | false => cases s.fetchDecode <;> simp

theorem State.nextInstr_error {a : Answer} :
    s.nextInstr = .error a ↔
      (∃ f, s.fault = some f ∧ a = .fault f) ∨
      (s.fault = none ∧ s.halted = true ∧ a = .next s) ∨
      (s.fault = none ∧ s.halted = false ∧ ∃ f, s.fetchDecode = .error f ∧ a = .next (s.raise f)) := by
  unfold State.nextInstr
  cases hf : s.fault with
  | some f => simp [@eq_comm _ a]
  | none =>
    cases s.halted with
    | true => simp [@eq_comm _ a]
    | false => cases s.fetchDecode <;> simp [@eq_comm _ a]

/-! ### Operand forms -/

/-- A sign-extended immediate is the immediate as a signed number (`30_encoding.md` rule R53). -/
theorem signedImm_toInt (imm16 : Imm16) : (signedImm imm16).toInt = imm16.toInt :=
  BitVec.toInt_signExtend_of_le (by omega)

/-- `isAligned` as the condition of the spec, `a[1:0] = 0`. -/
theorem isAligned_iff {a : Word} : isAligned a = true ↔ a.extractLsb' 0 2 = 0#2 := by
  simp [isAligned]

/-- The target of J and JAL is word `target26` of the 2^28-byte region of the delay slot (`30_encoding.md` rule R54). -/
theorem regionTarget_toNat (a : Word) (g : Target26) :
    (regionTarget a g).toNat = a.toNat / 2 ^ 28 * 2 ^ 28 + 4 * g.toNat := by
  have e : (regionTarget a g).toNat = (((a.extractLsb' 28 4 : BitVec 4) ++ g) ++ 0#2).toNat := rfl
  rw [e, BitVec.toNat_append, BitVec.toNat_append]
  have := a.isLt
  have := g.isLt
  rw [← Nat.shiftLeft_add_eq_or_of_lt (by simp), ← Nat.shiftLeft_add_eq_or_of_lt g.isLt]
  simp [Nat.shiftLeft_eq, Nat.shiftRight_eq_div_pow]
  omega

end Sys2Proof.Machine
end

