-- ==== Sys2Proof/Laws/Exec.lean ====
section
/-!
SUPPORT. Said once: everything an instruction can do when it answers a next state. Whole-machine facts are case analyses of
`Effect`, instead of case analyses of `exec`.
-/

namespace Sys2Proof.Machine

/-- The next states an instruction can answer, by the shape of what it writes (`10_state.md` rules R16, R20). -/
inductive Effect (s : State) : Instr → State → Prop
  /-- The fault is recorded and nothing else (`60_exceptions.md` rule R116). -/
  | raised {i : Instr} (f : Fault) (h : i.mayRaise = true) : Effect s i (s.raise f)
  /-- One general register is written; `advance_pc(4)`. -/
  | result {i : Instr} (d : RegNo) (v : Word) (h : i.resultReg = some d) : Effect s i ((s.setReg d v).advance 4#32)
  /-- `LO` and `HI` are written, `n` free values used; `advance_pc(4)`. -/
  | hiLo {i : Instr} (lo hi : Word) (n : Nat) (h : i.mnemonic = .mult ∨ i.mnemonic = .div) :
      Effect s i ((((s.setLo lo).setHi hi).spend n).advance 4#32)
  /-- SB: one byte outside `TEXT`; `advance_pc(4)`. -/
  | storeByte (rs rt : RegNo) (imm16 : Imm16) (hm : s.isMapped (s.ea rs imm16) = true)
      (ht : s.inText (s.ea rs imm16) = false) :
      Effect s (.sb rs rt imm16) ((s.setByte (s.ea rs imm16) (lowByte (s.reg rt))).advance 4#32)
  /-- SW: four bytes outside `TEXT`; `advance_pc(4)`. -/
  | storeWord (rs rt : RegNo) (imm16 : Imm16) (ha : isAligned (s.ea rs imm16) = true)
      (hm : (wordAddrs (s.ea rs imm16)).all s.isMapped = true)
      (ht : (wordAddrs (s.ea rs imm16)).any s.inText = false) :
      Effect s (.sw rs rt imm16) ((s.setWord (s.ea rs imm16) (s.reg rt)).advance 4#32)
  /-- BEQ, BNE, J, JR: `pc <- npc` and `npc` alone. -/
  | transfer {i : Instr} (target : Word) (h : i.isControl = true) (hl : i.mnemonic ≠ .jal) :
      Effect s i (s.jumpTo target)
  /-- JAL: the link register as well. -/
  | link (target26 : Target26) :
      Effect s (.jal target26) ((s.setReg 31#5 (s.pc + 8#32)).jumpTo (regionTarget s.npc target26))
  /-- ASRT, ASRTI that pass: `advance_pc(4)`. -/
  | passed {i : Instr} (h : i.mnemonic = .asrt ∨ i.mnemonic = .asrti) : Effect s i (s.advance 4#32)
  /-- HALT. -/
  | halted : Effect s .halt s.halt

variable {s t : State}

theorem Effect.ofDeliver {i : Instr} {d : RegNo} {v : Word} (hd : i.resultReg = some d)
    (h : s.deliver d v = .next t) : Effect s i t := by
  obtain rfl := State.deliver_next.mp h
  exact .result d v hd

theorem Effect.ofDeliverExact {i : Instr} {d : RegNo} {v : Int} (hd : i.resultReg = some d)
    (hr : i.mayRaise = true) (h : s.deliverExact d v = .next t) : Effect s i t := by
  obtain ⟨_, rfl⟩ | ⟨_, rfl⟩ := State.deliverExact_next.mp h
  · exact .result d _ hd
  · exact .raised _ hr

theorem Effect.ofAssert {i : Instr} {v1 v2 : Word} (hi : i.mnemonic = .asrt ∨ i.mnemonic = .asrti)
    (hr : i.mayRaise = true) (h : s.assertEqual v1 v2 = .next t) : Effect s i t := by
  obtain ⟨_, rfl⟩ | ⟨_, rfl⟩ := State.assertEqual_next.mp h
  · exact .passed hi
  · exact .raised _ hr

/-- Everything an instruction can do when it answers a next state. -/
theorem exec_effect {i : Instr} (h : exec i s = .next t) : Effect s i t := by
  cases i with
  | add _ _ _ | addi _ _ _ | sub _ _ _ => exact .ofDeliverExact rfl rfl h
  | and _ _ _ | andi _ _ _ | lui _ _ _ | mfhi _ | mflo _ | nor _ _ _ | or _ _ _ | ori _ _ _ => exact .ofDeliver rfl h
  | sll _ _ _ _ | slt _ _ _ | slti _ _ _ | sra _ _ _ _ | srl _ _ _ _ | xor _ _ _ _ | xori _ _ _ =>
    exact .ofDeliver rfl h
  | beq _ _ _ | bne _ _ _ =>
    obtain rfl := State.branch_next.mp h
    exact .transfer _ rfl (by simp [Instr.mnemonic])
  | j _ | jr _ =>
    obtain rfl := next_inj.mp h
    exact .transfer _ rfl (by simp [Instr.mnemonic])
  | jal target26 =>
    obtain rfl := next_inj.mp h
    exact .link target26
  | mult _ _ =>
    obtain rfl := next_inj.mp h
    exact .hiLo _ _ 1 (.inl rfl)
  | div rs rt =>
    simp only [exec, execDiv] at h
    split at h
    · obtain rfl := next_inj.mp h
      exact Effect.hiLo (i := .div rs rt) _ _ 2 (.inr rfl)
    · obtain rfl := next_inj.mp h
      exact Effect.hiLo (i := .div rs rt) (quotient (s.reg rs) (s.reg rt)) (remainder (s.reg rs) (s.reg rt)) 0 (.inr rfl)
  | lb rs rt imm16 =>
    obtain h | ⟨f, _, rfl⟩ := State.orRaise_next.mp h
    · cases hr : s.memRead1 (s.ea rs imm16) with
      | error f => simp [hr, Except.map] at h
      | ok b =>
        simp only [hr, Except.map, Except.ok.injEq] at h
        subst h
        exact .result rt _ rfl
    · exact .raised f rfl
  | lw rs rt imm16 =>
    obtain h | ⟨f, _, rfl⟩ := State.orRaise_next.mp h
    · cases hr : s.memRead4 (s.ea rs imm16) with
      | error f => simp [hr, Except.map] at h
      | ok b =>
        simp only [hr, Except.map, Except.ok.injEq] at h
        subst h
        exact .result rt _ rfl
    · exact .raised f rfl
  | sb rs rt imm16 =>
    obtain h | ⟨f, _, rfl⟩ := State.orRaise_next.mp h
    · cases hr : s.memWrite1 (s.ea rs imm16) (lowByte (s.reg rt)) with
      | error f => simp [hr, Except.map] at h
      | ok u =>
        simp only [hr, Except.map, Except.ok.injEq] at h
        obtain ⟨hm, ht, rfl⟩ := State.memWrite1_ok.mp hr
        subst h
        exact .storeByte rs rt imm16 hm ht
    · exact .raised f rfl
  | sw rs rt imm16 =>
    obtain h | ⟨f, _, rfl⟩ := State.orRaise_next.mp h
    · cases hr : s.memWrite4 (s.ea rs imm16) (s.reg rt) with
      | error f => simp [hr, Except.map] at h
      | ok u =>
        simp only [hr, Except.map, Except.ok.injEq] at h
        obtain ⟨ha, hm, ht, rfl⟩ := State.memWrite4_ok.mp hr
        subst h
        exact .storeWord rs rt imm16 ha hm ht
    · exact .raised f rfl
  | asrt _ _ => exact .ofAssert (.inl rfl) rfl h
  | asrti _ _ => exact .ofAssert (.inr rfl) rfl h
  | halt =>
    obtain rfl := next_inj.mp h
    exact .halted

/-- Everything a step can do when it answers a next state: nothing (halted), record a fault of the fetch or the decoding, or
run the instruction at `pc`. -/
theorem step_effect (h : step s = .next t) :
    s.fault = none ∧
      ((s.halted = true ∧ t = s) ∨
       (s.halted = false ∧ ∃ f, s.fetchDecode = .error f ∧ t = s.raise f) ∨
       (s.halted = false ∧ ∃ i, s.fetchDecode = .ok i ∧ exec i s = .next t ∧ Effect s i t)) := by
  unfold step at h
  cases hn : s.nextInstr with
  | ok i =>
    rw [hn] at h
    obtain ⟨hf, hh, hd⟩ := State.nextInstr_ok.mp hn
    exact ⟨hf, .inr (.inr ⟨hh, i, hd, h, exec_effect h⟩)⟩
  | error a =>
    rw [hn] at h
    obtain ⟨f, _, rfl⟩ | ⟨hf, hh, rfl⟩ | ⟨hf, hh, f, hd, rfl⟩ := State.nextInstr_error.mp hn
    · cases h
    · exact ⟨hf, .inl ⟨hh, (next_inj.mp h).symm⟩⟩
    · exact ⟨hf, .inr (.inl ⟨hh, f, hd, (next_inj.mp h).symm⟩)⟩

/-- An SB that completes stored one byte at a mapped address (`20_memory.md` rule R38). -/
theorem exec_sb_completed {rs rt : RegNo} {imm16 : Imm16} (h : exec (.sb rs rt imm16) s = .next t)
    (ht : t.fault = none) :
    s.isMapped (s.ea rs imm16) = true ∧
      t = (s.setByte (s.ea rs imm16) (lowByte (s.reg rt))).advance 4#32 := by
  cases exec_effect h with
  | raised f => simp at ht
  | storeByte _ _ _ hm => exact ⟨hm, rfl⟩
  | _ => simp [Instr.resultReg, Instr.mnemonic, Instr.isControl] at *

/-- An SW that completes stored four bytes at a mapped, aligned address (`20_memory.md` rule R39). -/
theorem exec_sw_completed {rs rt : RegNo} {imm16 : Imm16} (h : exec (.sw rs rt imm16) s = .next t)
    (ht : t.fault = none) :
    isAligned (s.ea rs imm16) = true ∧ (wordAddrs (s.ea rs imm16)).all s.isMapped = true ∧
      t = (s.setWord (s.ea rs imm16) (s.reg rt)).advance 4#32 := by
  cases exec_effect h with
  | raised f => simp at ht
  | storeWord _ _ _ ha hm => exact ⟨ha, hm, rfl⟩
  | _ => simp [Instr.resultReg, Instr.mnemonic, Instr.isControl] at *

end Sys2Proof.Machine
end

