-- ==== Sys2Proof/Laws/Launch.lean ====
section
/-!
SUPPORT. What placing words in memory before a run changes, and that it keeps the canonical form
(`70_reset_and_hazards.md` rule R128).
-/

namespace Sys2Proof.Machine

/-- Placing bytes writes memory alone. -/
theorem State.setBytes_keep (s : State) (bytes : List (Word × Byte)) :
    s.setBytes bytes = { s with mem := (s.setBytes bytes).mem } := by
  induction bytes generalizing s with
  | nil => rfl
  | cons ab rest ih => exact ih (s.setByte ab.1 ab.2)

theorem State.setBytes_memWf {s : State} (bytes : List (Word × Byte)) (h : Memory.wf s.mem = true) :
    Memory.wf (s.setBytes bytes).mem = true := by
  induction bytes generalizing s with
  | nil => exact h
  | cons ab rest ih => exact ih (State.setByte_memWf _ _ h)

theorem State.setBytes_byte_other {s : State} {bytes : List (Word × Byte)} {x : Word}
    (h : ∀ ab ∈ bytes, x ≠ ab.1) : (s.setBytes bytes).byte x = s.byte x := by
  induction bytes generalizing s with
  | nil => rfl
  | cons ab rest ih =>
    have := @ih (s.setByte ab.1 ab.2) fun y hy => h y (.tail _ hy)
    rw [State.setByte_byte, if_neg (h ab (.head _))] at this
    exact this

/-- Placing words writes memory alone. -/
theorem State.setWords_keep (s : State) (words : List (Word × Word)) :
    s.setWords words = { s with mem := (s.setWords words).mem } := by
  induction words generalizing s with
  | nil => rfl
  | cons aw rest ih => exact ih (s.setWord aw.1 aw.2)

theorem State.setWords_memWf {s : State} (words : List (Word × Word)) (h : Memory.wf s.mem = true) :
    Memory.wf (s.setWords words).mem = true := by
  induction words generalizing s with
  | nil => exact h
  | cons aw rest ih => exact ih (State.setWord_memWf _ _ h)

theorem State.setWords_byte_other {s : State} {words : List (Word × Word)} {x : Word}
    (h : ∀ aw ∈ words, x ∉ wordAddrs aw.1) : (s.setWords words).byte x = s.byte x := by
  induction words generalizing s with
  | nil => rfl
  | cons aw rest ih =>
    have := @ih (s.setWord aw.1 aw.2) fun y hy => h y (.tail _ hy)
    rw [State.setWord_byte_other _ _ (h aw (.head _))] at this
    exact this

/-- Bytes placed are placed one list after the other. -/
theorem State.setBytes_append (s : State) (xs ys : List (Word × Byte)) :
    s.setBytes (xs ++ ys) = (s.setBytes xs).setBytes ys := by
  induction xs generalizing s with
  | nil => rfl
  | cons x xs ih => exact ih _

/-- Words placed are placed one list after the other. -/
theorem State.setWords_append (s : State) (xs ys : List (Word × Word)) :
    s.setWords (xs ++ ys) = (s.setWords xs).setWords ys := by
  induction xs generalizing s with
  | nil => rfl
  | cons x xs ih => exact ih _

/-- Words placed elsewhere leave the word at `a`. -/
theorem State.setWords_wordAt_other {s : State} {words : List (Word × Word)} {a : Word}
    (h : ∀ aw ∈ words, ∀ x ∈ wordAddrs a, x ∉ wordAddrs aw.1) : (s.setWords words).wordAt a = s.wordAt a := by
  have hb : ∀ x ∈ wordAddrs a, (s.setWords words).byte x = s.byte x :=
    fun x hx => State.setWords_byte_other fun aw haw => h aw haw x hx
  have hc : (s.setWords words).cfg = s.cfg := by rw [State.setWords_keep]
  simp only [wordAddrs, List.mem_cons, List.not_mem_nil, or_false, forall_eq_or_imp, forall_eq] at hb
  simp [State.wordAt, hb, hc]

theorem State.launch_memWf (l : Launch) : Memory.wf (State.launch l).mem = true :=
  State.setWords_memWf l.words (State.setBytes_memWf l.bytes rfl)

theorem State.placeInstruction_memWf {s : State} (w : Word) (h : Memory.wf s.mem = true) :
    Memory.wf (s.placeInstruction w).mem = true := by
  unfold State.placeInstruction
  exact State.setWord_memWf _ _ h

end Sys2Proof.Machine
end

