-- ==== Sys2Proof/Laws/PerInstr.lean ====
section
/-!
SUPPORT. For every instruction, its word has the fixed bits of its own row of the opcode table (`30_encoding.md` rules R52,
R57): one lemma per constructor.
-/

namespace Sys2Proof

/-- The row of a mnemonic in the opcode table (rule R57). -/
def Mnemonic.row (m : Mnemonic) : Option OpcodeRow := opcodeRows.find? fun r => r.mnemonic == m

/-- The word of `i` is admitted by the row of `i`'s mnemonic. -/
def Laws.OwnRow.Statement (i : Instr) : Prop :=
  ∀ r, i.mnemonic.row = some r → r.admits (encode i) = true

/-- How the lemmas below use the row: the table has one row for the mnemonic, and the masked word is its pattern. -/
theorem Laws.OwnRow.of_row {i : Instr} {r : OpcodeRow} (hr : i.mnemonic.row = some r)
    (hw : encode i &&& r.mask = r.pattern) : Laws.OwnRow.Statement i := by
  intro q hq
  rw [hr] at hq
  cases hq
  exact beq_iff_eq.mpr hw

theorem Laws.OwnRow.add (rs rt rd : RegNo) :
    Laws.OwnRow.Statement (.add rs rt rd) :=
  Laws.OwnRow.of_row rfl (packR_mask_shamt_funct ..)

theorem Laws.OwnRow.addi (rs rt : RegNo) (imm16 : Imm16) :
    Laws.OwnRow.Statement (.addi rs rt imm16) :=
  Laws.OwnRow.of_row rfl (packI_mask_opcode ..)

theorem Laws.OwnRow.and (rs rt rd : RegNo) :
    Laws.OwnRow.Statement (.and rs rt rd) :=
  Laws.OwnRow.of_row rfl (packR_mask_shamt_funct ..)

theorem Laws.OwnRow.andi (rs rt : RegNo) (imm16 : Imm16) :
    Laws.OwnRow.Statement (.andi rs rt imm16) :=
  Laws.OwnRow.of_row rfl (packI_mask_opcode ..)

theorem Laws.OwnRow.beq (rs rt : RegNo) (imm16 : Imm16) :
    Laws.OwnRow.Statement (.beq rs rt imm16) :=
  Laws.OwnRow.of_row rfl (packI_mask_opcode ..)

theorem Laws.OwnRow.bne (rs rt : RegNo) (imm16 : Imm16) :
    Laws.OwnRow.Statement (.bne rs rt imm16) :=
  Laws.OwnRow.of_row rfl (packI_mask_opcode ..)

theorem Laws.OwnRow.div (rs rt : RegNo) :
    Laws.OwnRow.Statement (.div rs rt) :=
  Laws.OwnRow.of_row rfl (packR_mask_rd_shamt_funct ..)

theorem Laws.OwnRow.j (target26 : Target26) :
    Laws.OwnRow.Statement (.j target26) :=
  Laws.OwnRow.of_row rfl (packJ_mask_opcode ..)

theorem Laws.OwnRow.jal (target26 : Target26) :
    Laws.OwnRow.Statement (.jal target26) :=
  Laws.OwnRow.of_row rfl (packJ_mask_opcode ..)

theorem Laws.OwnRow.jr (rs : RegNo) :
    Laws.OwnRow.Statement (.jr rs) :=
  Laws.OwnRow.of_row rfl (packR_mask_rt_rd_shamt_funct ..)

theorem Laws.OwnRow.lb (rs rt : RegNo) (imm16 : Imm16) :
    Laws.OwnRow.Statement (.lb rs rt imm16) :=
  Laws.OwnRow.of_row rfl (packI_mask_opcode ..)

theorem Laws.OwnRow.lui (ignored : Ignored5) (rt : RegNo) (imm16 : Imm16) :
    Laws.OwnRow.Statement (.lui ignored rt imm16) :=
  Laws.OwnRow.of_row rfl (packI_mask_opcode ..)

theorem Laws.OwnRow.lw (rs rt : RegNo) (imm16 : Imm16) :
    Laws.OwnRow.Statement (.lw rs rt imm16) :=
  Laws.OwnRow.of_row rfl (packI_mask_opcode ..)

theorem Laws.OwnRow.mfhi (rd : RegNo) :
    Laws.OwnRow.Statement (.mfhi rd) :=
  Laws.OwnRow.of_row rfl (packR_mask_rs_rt_shamt_funct ..)

theorem Laws.OwnRow.mflo (rd : RegNo) :
    Laws.OwnRow.Statement (.mflo rd) :=
  Laws.OwnRow.of_row rfl (packR_mask_rs_rt_shamt_funct ..)

theorem Laws.OwnRow.mult (rs rt : RegNo) :
    Laws.OwnRow.Statement (.mult rs rt) :=
  Laws.OwnRow.of_row rfl (packR_mask_rd_shamt_funct ..)

theorem Laws.OwnRow.nor (rs rt rd : RegNo) :
    Laws.OwnRow.Statement (.nor rs rt rd) :=
  Laws.OwnRow.of_row rfl (packR_mask_shamt_funct ..)

theorem Laws.OwnRow.or (rs rt rd : RegNo) :
    Laws.OwnRow.Statement (.or rs rt rd) :=
  Laws.OwnRow.of_row rfl (packR_mask_shamt_funct ..)

theorem Laws.OwnRow.ori (rs rt : RegNo) (imm16 : Imm16) :
    Laws.OwnRow.Statement (.ori rs rt imm16) :=
  Laws.OwnRow.of_row rfl (packI_mask_opcode ..)

theorem Laws.OwnRow.sb (rs rt : RegNo) (imm16 : Imm16) :
    Laws.OwnRow.Statement (.sb rs rt imm16) :=
  Laws.OwnRow.of_row rfl (packI_mask_opcode ..)

theorem Laws.OwnRow.sll (unusedRs : Ignored5) (rt rd : RegNo) (shamt : Shamt) :
    Laws.OwnRow.Statement (.sll unusedRs rt rd shamt) :=
  Laws.OwnRow.of_row rfl (packR_mask_funct ..)

theorem Laws.OwnRow.slt (rs rt rd : RegNo) :
    Laws.OwnRow.Statement (.slt rs rt rd) :=
  Laws.OwnRow.of_row rfl (packR_mask_shamt_funct ..)

theorem Laws.OwnRow.slti (rs rt : RegNo) (imm16 : Imm16) :
    Laws.OwnRow.Statement (.slti rs rt imm16) :=
  Laws.OwnRow.of_row rfl (packI_mask_opcode ..)

theorem Laws.OwnRow.sra (ignored : Ignored5) (rt rd : RegNo) (shamt : Shamt) :
    Laws.OwnRow.Statement (.sra ignored rt rd shamt) :=
  Laws.OwnRow.of_row rfl (packR_mask_funct ..)

theorem Laws.OwnRow.srl (ignored : Ignored5) (rt rd : RegNo) (shamt : Shamt) :
    Laws.OwnRow.Statement (.srl ignored rt rd shamt) :=
  Laws.OwnRow.of_row rfl (packR_mask_funct ..)

theorem Laws.OwnRow.sub (rs rt rd : RegNo) :
    Laws.OwnRow.Statement (.sub rs rt rd) :=
  Laws.OwnRow.of_row rfl (packR_mask_shamt_funct ..)

theorem Laws.OwnRow.sw (rs rt : RegNo) (imm16 : Imm16) :
    Laws.OwnRow.Statement (.sw rs rt imm16) :=
  Laws.OwnRow.of_row rfl (packI_mask_opcode ..)

theorem Laws.OwnRow.xor (rs rt rd : RegNo) (ignored : Ignored5) :
    Laws.OwnRow.Statement (.xor rs rt rd ignored) :=
  Laws.OwnRow.of_row rfl (packR_mask_funct ..)

theorem Laws.OwnRow.xori (rs rt : RegNo) (imm16 : Imm16) :
    Laws.OwnRow.Statement (.xori rs rt imm16) :=
  Laws.OwnRow.of_row rfl (packI_mask_opcode ..)

theorem Laws.OwnRow.asrt (rs rt : RegNo) :
    Laws.OwnRow.Statement (.asrt rs rt) :=
  Laws.OwnRow.of_row rfl (packI_mask_opcode_imm16 ..)

theorem Laws.OwnRow.asrti (rt : RegNo) (imm16 : Imm16) :
    Laws.OwnRow.Statement (.asrti rt imm16) :=
  Laws.OwnRow.of_row rfl (packI_mask_opcode_rs ..)

theorem Laws.OwnRow.halt :
    Laws.OwnRow.Statement (.halt) :=
  Laws.OwnRow.of_row rfl rfl

end Sys2Proof
end

