-- ==== Sys2Proof/Tests/Slice0.lean ====
section
/-!
SUPPORT. Tests. The words and the expected results are those of `95_test_vectors.md` and of the instruction rules' corner
cases, which that file derives from the rules. `test_` theorems are those; `witness_` theorems show, for each statement of
the obligations with hypotheses, a state and operands that meet all of them together.
-/

namespace Sys2Proof.Tests

open Sys2Proof.Machine

/-! ### The states the tests use -/

/-- A state of the test vectors' map: `TEXT` the first 16 bytes, `MAPPED` 0x000 to 0xFFF, the word 0x12345678 at 0x200,
`pc` = 0x100 and `npc` = 0x104, and the registers given. -/
def start (regs : List (RegNo × Word)) (order : ByteOrder := .big) : State :=
  let s : State :=
    { State.reset with pc := 0x100, npc := 0x104, cfg := ⟨order, ⟨[⟨0, 4⟩], [⟨0, 0x1000⟩]⟩⟩ }
  (regs.foldl (fun t rv => t.setReg rv.1 rv.2) s).setWord 0x200 0x12345678

/-- A launch of the given words from address 0 (`95_test_vectors.md` sections 4 and 5). -/
def program (ws : List Word) (order : ByteOrder := .big) : State := State.launch (Launch.ofProgram order ws)

/-- The next state an answer gives. -/
def nextOf : Answer → Option State
  | .next t => some t
  | .fault _ => none
  | .refused _ => none

/-- The next state of the instruction with this word. -/
def run (w : Word) (s : State) : Option State :=
  match decode w with
  | .ok i => nextOf (exec i s)
  | .error _ => none

/-- Register `r` after the instruction with this word, where `fault` is none and control has gone on to 0x104, 0x108. -/
def result (w : Word) (regs : List (RegNo × Word)) (r : RegNo) : Option Word :=
  match run w (start regs) with
  | some t => if t.fault = none ∧ t.pc = 0x104 ∧ t.npc = 0x108 then some (t.reg r) else none
  | none => none

/-- The fault the instruction with this word records, where `pc` and `npc` stay. -/
def faultOf (w : Word) (s : State) : Option Fault :=
  match run w s with
  | some t => if t.pc = s.pc ∧ t.npc = s.npc then t.fault else none
  | none => none

/-- `pc` and `npc` after the instruction with this word. -/
def counters (w : Word) (s : State) : Option (Word × Word) := (run w s).map fun t => (t.pc, t.npc)

/-- A state at the given `pc` and `npc`. -/
def at_ (pc npc : Word) (regs : List (RegNo × Word)) : State := { start regs with pc := pc, npc := npc }

/-! ### Well-formedness: an ill-formed term for each check (`30_encoding.md` rules R52, R68) -/

theorem test_wellFormed_lui : (Instr.lui 1 2 3).wellFormed = false ∧ (Instr.lui 0 2 3).wellFormed = true := by decide
theorem test_wellFormed_sll : (Instr.sll 1 2 3 4).wellFormed = false ∧ (Instr.sll 0 2 3 4).wellFormed = true := by decide
theorem test_wellFormed_sra : (Instr.sra 1 2 3 4).wellFormed = false ∧ (Instr.sra 0 2 3 4).wellFormed = true := by decide
theorem test_wellFormed_srl : (Instr.srl 1 2 3 4).wellFormed = false ∧ (Instr.srl 0 2 3 4).wellFormed = true := by decide
theorem test_wellFormed_xor : (Instr.xor 1 2 3 4).wellFormed = false ∧ (Instr.xor 1 2 3 0).wellFormed = true := by decide

/-! ### Decoding: every constructor by a word written out bit by bit from its pattern (`30_encoding.md` rule R57) -/

-- opcode, rs, rt, rd, shamt, funct
theorem test_decode_add : decode 0b000000_00001_00010_00011_00000_100000 = .ok (.add 1 2 3) := by decide
theorem test_decode_sub : decode 0b000000_00001_00010_00011_00000_100010 = .ok (.sub 1 2 3) := by decide
theorem test_decode_and : decode 0b000000_00001_00010_00011_00000_100100 = .ok (.and 1 2 3) := by decide
theorem test_decode_or : decode 0b000000_00001_00010_00011_00000_100101 = .ok (.or 1 2 3) := by decide
theorem test_decode_xor : decode 0b000000_00001_00010_00011_11111_100110 = .ok (.xor 1 2 3 31) := by decide
theorem test_decode_nor : decode 0b000000_00001_00010_00011_00000_100111 = .ok (.nor 1 2 3) := by decide
theorem test_decode_slt : decode 0b000000_00001_00010_00011_00000_101010 = .ok (.slt 1 2 3) := by decide
theorem test_decode_sll : decode 0b000000_11111_00011_00100_00101_000000 = .ok (.sll 31 3 4 5) := by decide
theorem test_decode_srl : decode 0b000000_11111_00001_00011_00100_000010 = .ok (.srl 31 1 3 4) := by decide
theorem test_decode_sra : decode 0b000000_11111_00001_00010_00100_000011 = .ok (.sra 31 1 2 4) := by decide
theorem test_decode_div : decode 0b000000_00100_00101_00000_00000_011010 = .ok (.div 4 5) := by decide
theorem test_decode_mult : decode 0b000000_00100_00101_00000_00000_011000 = .ok (.mult 4 5) := by decide
theorem test_decode_mfhi : decode 0b000000_00000_00000_00011_00000_010000 = .ok (.mfhi 3) := by decide
theorem test_decode_mflo : decode 0b000000_00000_00000_00010_00000_010010 = .ok (.mflo 2) := by decide
theorem test_decode_jr : decode 0b000000_11111_00000_00000_00000_001000 = .ok (.jr 31) := by decide

-- opcode, rs, rt, imm16
theorem test_decode_addi : decode 0b001000_00001_00010_1111111111111111 = .ok (.addi 1 2 0xFFFF) := by decide
theorem test_decode_slti : decode 0b001010_00001_00010_1000000000000001 = .ok (.slti 1 2 0x8001) := by decide
theorem test_decode_andi : decode 0b001100_00001_00010_1111111100000000 = .ok (.andi 1 2 0xFF00) := by decide
theorem test_decode_ori : decode 0b001101_00001_00010_1000000000000000 = .ok (.ori 1 2 0x8000) := by decide
theorem test_decode_xori : decode 0b001110_00001_00010_0000000000000011 = .ok (.xori 1 2 3) := by decide
theorem test_decode_lui : decode 0b001111_11111_00001_0001001000110100 = .ok (.lui 31 1 0x1234) := by decide
theorem test_decode_beq : decode 0b000100_00001_00010_0000000000000011 = .ok (.beq 1 2 3) := by decide
theorem test_decode_bne : decode 0b000101_00001_00000_1111111111111101 = .ok (.bne 1 0 0xFFFD) := by decide
theorem test_decode_lb : decode 0b100000_00010_00011_0000000000000001 = .ok (.lb 2 3 1) := by decide
theorem test_decode_lw : decode 0b100011_00010_00111_0000000000000100 = .ok (.lw 2 7 4) := by decide
theorem test_decode_sb : decode 0b101000_00010_00101_0000000000000001 = .ok (.sb 2 5 1) := by decide
theorem test_decode_sw : decode 0b101011_11101_00001_1111111111111100 = .ok (.sw 29 1 0xFFFC) := by decide
theorem test_decode_asrt : decode 0b010100_00001_00100_0000000000000000 = .ok (.asrt 1 4) := by decide
theorem test_decode_asrti : decode 0b010101_00000_00010_1111111111101011 = .ok (.asrti 2 0xFFEB) := by decide

-- opcode, target26
theorem test_decode_j : decode 0b000010_10000000000000000000010000 = .ok (.j 0x2000010) := by decide
theorem test_decode_jal : decode 0b000011_00000000000000000000001000 = .ok (.jal 8) := by decide
theorem test_decode_halt : decode 0b010110_00000000000000000000000000 = .ok .halt := by decide

/-- The decoder rejects a word by this name. -/
def rejectedAs (why : Reserved) (w : Word) : Bool :=
  match decode w with
  | .ok _ => false
  | .error e => e == why

/-- Reserved words by primary opcode (`95_test_vectors.md` section 2.2). -/
theorem test_decode_reserved_opcode :
    ([0x5C000000, 0xFFFFFFFF, 0x24220001, 0x2C220001, 0x90430000, 0x84430000, 0xA4430000, 0x04200001, 0x18200001,
      0x1C200001, 0x40000000] : List Word).all (rejectedAs .primaryOpcode) = true := by decide

/-- Reserved words by `funct` (section 2.2). -/
theorem test_decode_reserved_funct :
    ([0x00000001, 0x0000003F, 0x0000000C, 0x0000000D, 0x00221821, 0x00221823, 0x0022182B, 0x00850019, 0x0085001B,
      0x00200011, 0x00221804, 0x03E0F809] : List Word).all (rejectedAs .functCode) = true := by decide

/-- Reserved words by another fixed bit (section 2.2). -/
theorem test_decode_reserved_fixed :
    ([0x00221FE0, 0x0085081A, 0x0085005A, 0x00011810, 0x00200810, 0x00001850, 0x03E10008, 0x03E00808, 0x03E00048,
      0x50240001, 0x54220005, 0x58000001] : List Word).all (rejectedAs .fixedBits) = true := by decide

/-! ### The assembler, by lines of section 2.1 -/

theorem test_assemble_registers :
    (assemble "sub $3, $1, $2").toOption = some 0x00221822#32 ∧
    (assemble "xor $3, $1, $2").toOption = some 0x00221826#32 ∧
    (assemble "div $4, $5").toOption = some 0x0085001A#32 ∧
    (assemble "mfhi $3").toOption = some 0x00001810#32 ∧
    (assemble "jr $31").toOption = some 0x03E00008#32 ∧
    (assemble "sra $2, $1, 4").toOption = some 0x00011103#32 := by decide

theorem test_assemble_immediates :
    (assemble "slti $2, $1, -1").toOption = some 0x2822FFFF#32 ∧
    (assemble "lui $1, 0x1234").toOption = some 0x3C011234#32 ∧
    (assemble "bne $1, $0, -3").toOption = some 0x1420FFFD#32 ∧
    (assemble "jal 8").toOption = some 0x0C000008#32 ∧
    (assemble "lb $3, 1($2)").toOption = some 0x80430001#32 ∧
    (assemble "asrti $2, -21").toOption = some 0x5402FFEB#32 := by decide

/-- Label operands of the bne of program P1 and of two branches whose label lies across the top of the address space. -/
theorem test_labelOffset :
    labelOffset 0x14 0x0C = some 0xFFFD ∧ labelOffset 0xFFFFFFFC 0xFFFFFFF0 = some 0xFFFC ∧
    labelOffset 0 0xFFFFFFFC = some 0xFFFE ∧ labelOffset 0x14 0x0E = none := by decide

theorem test_assemble_text : instrText (.sw 29 1 0xFFFC) = "sw $1, 65532($29)".toList := by decide

/-! ### One step per instruction -/

theorem test_add :
    result 0x00221820 [(1, 0xFFFFFFFF), (2, 1)] 3 = some 0 ∧
    result 0x00221820 [(1, 0x40000000), (2, 0x3FFFFFFF)] 3 = some 0x7FFFFFFF := by decide
theorem test_add_overflow :
    faultOf 0x00221820 (start [(1, 0x7FFFFFFF), (2, 1)]) = some (.integerOverflow 0x100) ∧
    faultOf 0x00221820 (start [(1, 0x80000000), (2, 0xFFFFFFFF)]) = some (.integerOverflow 0x100) := by decide
theorem test_addi :
    result 0x20220000 [(1, 7)] 2 = some 7 ∧ result 0x20228000 [] 2 = some 0xFFFF8000 ∧
    result 0x20228000 [(1, 0x80008000)] 2 = some 0x80000000 := by decide
theorem test_addi_overflow :
    faultOf 0x20227FFF (start [(1, 0x7FFF8001)]) = some (.integerOverflow 0x100) ∧
    faultOf 0x20228000 (start [(1, 0x80007FFF)]) = some (.integerOverflow 0x100) := by decide
theorem test_sub :
    result 0x00221822 [(1, 5), (2, 7)] 3 = some 0xFFFFFFFE ∧
    result 0x00221822 [(1, 0xFFFFFFFF), (2, 0x80000000)] 3 = some 0x7FFFFFFF := by decide
theorem test_sub_overflow :
    faultOf 0x00221822 (start [(2, 0x80000000)]) = some (.integerOverflow 0x100) ∧
    faultOf 0x00221822 (start [(1, 0x80000000), (2, 1)]) = some (.integerOverflow 0x100) := by decide
theorem test_slt :
    result 0x0022182A [(1, 0xFFFFFFFF)] 3 = some 1 ∧ result 0x0022182A [(2, 0xFFFFFFFF)] 3 = some 0 ∧
    result 0x0022182A [(1, 5), (2, 5)] 3 = some 0 := by decide
theorem test_slti :
    result 0x2822FFFF [] 2 = some 0 ∧ result 0x28228000 [(1, 0xFFFF7FFF)] 2 = some 1 ∧
    result 0x28220001 [] 2 = some 1 := by decide
theorem test_and : result 0x00221824 [(1, 0x12345678), (2, 0x0F0F0F0F)] 3 = some 0x02040608 := by decide
theorem test_or : result 0x00221825 [(1, 0x12345678), (2, 0x0F0F0F0F)] 3 = some 0x1F3F5F7F := by decide
theorem test_xor : result 0x00221FE6 [(1, 0x12345678), (2, 0x0F0F0F0F)] 3 = some 0x1D3B5977 := by decide
theorem test_nor :
    result 0x00221827 [(1, 0x12345678), (2, 0x0F0F0F0F)] 3 = some 0xE0C0A080 ∧
    result 0x00003827 [] 7 = some 0xFFFFFFFF := by decide
theorem test_andi : result 0x3022FF00 [(1, 0xFFFFFFFF)] 2 = some 0x0000FF00 := by decide
theorem test_ori : result 0x34228000 [(1, 0x12345678)] 2 = some 0x1234D678 := by decide
theorem test_xori : result 0x3822FFFF [(1, 0xFFFFFFFF)] 2 = some 0xFFFF0000 := by decide
theorem test_lui : result 0x3FE1FFFF [(31, 5)] 1 = some 0xFFFF0000 := by decide
theorem test_sll :
    result 0x03E32100 [(3, 0x08000000)] 4 = some 0x80000000 ∧
    result 0x000327C0 [(3, 0x80000001)] 4 = some 0x80000000 := by decide
theorem test_srl :
    result 0x00011902 [(1, 0x80000001)] 3 = some 0x08000000 ∧
    result 0x00011FC2 [(1, 0x80000001)] 3 = some 1 := by decide
theorem test_sra :
    result 0x00011103 [(1, 0x80000001)] 2 = some 0xF8000000 ∧
    result 0x000117C3 [(1, 0x7FFFFFFF)] 2 = some 0 ∧
    result 0x00011043 [(1, 0xFFFFFFF9)] 2 = some 0xFFFFFFFC := by decide

/-- `LO` and `HI` after the DIV 0x0085001A of the given operands. -/
def divided (a b : Word) : Option (Word × Word) := (run 0x0085001A (start [(4, a), (5, b)])).map fun t => (t.lo, t.hi)

-- Rows of the table of rule R95.
theorem test_div_signs :
    divided 7 0xFFFFFFFD = some (0xFFFFFFFE, 1) ∧ divided 0xFFFFFFF9 3 = some (0xFFFFFFFE, 0xFFFFFFFF) ∧
    divided 0xFFFFFFF9 0xFFFFFFFD = some (2, 0xFFFFFFFF) ∧ divided 0x80000000 2 = some (0xC0000000, 0) := by decide

/-- The corner cases go on, with `pc` and `npc` advanced and no fault (rule R95). -/
theorem test_div_corners :
    counters 0x0085001A (start [(4, 9), (5, 0)]) = some (0x104, 0x108) ∧
    counters 0x0085001A (start [(4, 0x80000000), (5, 0xFFFFFFFF)]) = some (0x104, 0x108) ∧
    (run 0x0085001A (start [(4, 9), (5, 0)])).map State.fault = some none := by decide

theorem test_mult :
    (run 0x00850018 (start [(4, 7), (5, 0xFFFFFFFD)])).map State.lo = some 0xFFFFFFEB ∧
    (run 0x00850018 (start [(4, 0x00012345), (5, 0x00006789)])).map State.lo = some 0x75CCA2ED := by decide
theorem test_mfhi : (run 0x00001810 { start [] with hi := 5, lo := 6 }).map (State.reg · 3) = some 5 := by decide
theorem test_mflo : (run 0x00001012 { start [] with hi := 5, lo := 6 }).map (State.reg · 2) = some 6 := by decide

theorem test_lb :
    (run 0x80430000 (start [(2, 0x200)])).map (State.reg · 3) = some 0x12 ∧
    (run 0x80430003 (start [(2, 0x200)] .little)).map (State.reg · 3) = some 0x12 ∧
    (run 0x80430000 ((start [(2, 0x200)]).setByte 0x200 0x80)).map (State.reg · 3) = some 0xFFFFFF80 := by decide
theorem test_lb_faults :
    faultOf 0x80437FFF (start [(2, 0x100)]) = some (.unmappedAccess 0x80FF .read .byte) ∧
    faultOf 0x8043FEFF (start [(2, 0x100)]) = some (.unmappedAccess 0xFFFFFFFF .read .byte) ∧
    faultOf 0x80430000 (start [(2, 0x204)]) = some (.uninitialisedRead 0x204) := by decide
theorem test_lw :
    result 0x8C470000 [(2, 0x200)] 7 = some 0x12345678 ∧
    (run 0x8C470000 (start [(2, 0x200)] .little)).map (State.reg · 7) = some 0x12345678 := by decide
theorem test_lw_faults :
    faultOf 0x8C477FFF (start [(2, 0x100)]) = some (.misalignedAccess 0x80FF .read) ∧
    faultOf 0x8C470000 (start [(2, 0x1000)]) = some (.unmappedAccess 0x1000 .read .word) ∧
    faultOf 0x8C47FFFC (start [(2, 0x200)]) = some (.uninitialisedRead 0x1FC) := by decide
theorem test_sb :
    (run 0xA0450001 (start [(2, 0x200), (5, 0xFFFFFF80)])).map (fun t => (t.wordAt 0x200).toOption) =
      some (some 0x12805678) ∧
    (run 0xA0450001 (start [(2, 0x200), (5, 0xFFFFFF80)] .little)).map (fun t => (t.wordAt 0x200).toOption) =
      some (some 0x12348078) := by decide
theorem test_sb_faults :
    faultOf 0xA0450001 (start [(2, 0xE)]) = some (.textWrite 0xF) ∧
    faultOf 0xA0450001 (start [(2, 0xFFF)]) = some (.unmappedAccess 0x1000 .write .byte) := by decide
theorem test_sw :
    (run 0xAC410000 (start [(1, 0xA1B2C3D4), (2, 0x300)])).map (fun t => (t.byte 0x300, t.byte 0x303)) =
      some (some 0xA1, some 0xD4) ∧
    (run 0xAC410000 (start [(1, 0xA1B2C3D4), (2, 0x300)] .little)).map (fun t => (t.byte 0x300, t.byte 0x303)) =
      some (some 0xD4, some 0xA1) := by decide
theorem test_sw_faults :
    faultOf 0xAC410000 (start [(2, 0x102)]) = some (.misalignedAccess 0x102 .write) ∧
    faultOf 0xAC410000 (start []) = some (.textWrite 0) ∧
    faultOf 0xAC410000 (start [(2, 0x1000)]) = some (.unmappedAccess 0x1000 .write .word) := by decide

theorem test_beq :
    counters 0x10220003 (start []) = some (0x104, 0x110) ∧ counters 0x10220003 (start [(1, 1)]) = some (0x104, 0x108) ∧
    counters 0x1000FFFE (at_ 0 4 []) = some (4, 0xFFFFFFFC) := by decide
theorem test_bne :
    counters 0x1420FFFD (at_ 0x10 0x14 [(1, 4)]) = some (0x14, 8) ∧
    counters 0x1420FFFD (at_ 0x10 0x14 []) = some (0x14, 0x18) := by decide
theorem test_j :
    counters 0x08000010 (at_ 0x0FFFFFFC 0x10000000 []) = some (0x10000000, 0x10000040) ∧
    counters 0x0BFFFFFF (start []) = some (0x104, 0x0FFFFFFC) := by decide
theorem test_jal :
    (run 0x0C000008 (at_ 8 0xC [])).map (fun t => (t.reg 31, t.pc, t.npc)) = some (0x10, 0xC, 0x20) ∧
    (run 0x0C000008 (at_ 0xFFFFFFFC 0 [])).map (fun t => (t.reg 31, t.pc, t.npc)) = some (4, 0, 0x20) := by decide
theorem test_jr :
    counters 0x03E00008 (at_ 0x30 0x34 [(31, 0x10)]) = some (0x34, 0x10) ∧
    counters 0x00200008 (at_ 4 8 [(1, 6)]) = some (8, 6) := by decide
theorem test_asrt :
    counters 0x50240000 (start [(4, 0x80000000), (1, 0x80000000)]) = some (0x104, 0x108) ∧
    faultOf 0x50240000 (start [(4, 1), (1, 2)]) = some (.assertFailed 0x100 1 2) := by decide
theorem test_asrti :
    counters 0x5402FFEB (start [(2, 0xFFFFFFEB)]) = some (0x104, 0x108) ∧
    faultOf 0x5402FFEB (start [(2, 0x0000FFEB)]) = some (.assertFailed 0x100 0x0000FFEB 0xFFFFFFEB) := by decide
theorem test_halt :
    (run 0x58000000 (at_ 0x1C 0x20 [])).map (fun t => (t.halted, t.pc, t.npc)) = some (true, 0x1C, 0x20) := by decide

/-- Register 0 (`95_test_vectors.md` section 3.8). -/
theorem test_register_zero :
    result 0x20000005 [] 0 = some 0 ∧ result 0x8C400000 [(2, 0x200)] 0 = some 0 ∧
    faultOf 0x8C400000 (start [(2, 0x201)]) = some (.misalignedAccess 0x201 .read) := by decide

/-! ### The step -/

/-- The fetch's faults, in their order (rows V3, V6, V13 of section 4), and an instruction of the program. -/
theorem test_step :
    (nextOf (step { program [0x58000000] with pc := 6 })).map State.fault = some (some (.fetchMisaligned 6)) ∧
    (nextOf (step { program [0x58000000] with pc := 8 })).map State.fault = some (some (.fetchUnmapped 8)) ∧
    (nextOf (step (program [0x00221FE0]))).map State.fault = some (some (.reservedInstruction 0 0x00221FE0)) ∧
    (nextOf (step (program [0x20010005] .little))).map (State.reg · 1) = some 5 := by decide

/-- The first step after reset, with nothing loaded (log entry 9). -/
theorem test_step_reset : (nextOf (step State.reset)).map State.fault = some (some (.fetchUnmapped 0)) := by decide

theorem test_withFetchWord :
    (nextOf (step (State.reset.withFetchWord 32 0x20010005))).map (fun t => (t.reg 1, t.pc, t.npc)) = some (5, 4, 8) ∧
    decodeTableWord 32 0x20010005 = some (.addi 0 1 5) ∧ decodeTableWord 32 0x5C000000 = none := by decide

/-! ### Witnesses: the hypotheses of the statements can be met, each clause at a boundary of its range -/

theorem witness_EncodeOfDecode : decode 0x00221FE6 = .ok (.xor 1 2 3 31) := by decide

theorem witness_DecodeTestsExactlyTheFixedBits :
    (⟨.xor, 0x00000026, 0xFC00003F⟩ : OpcodeRow) ∈ opcodeRows ∧
    parseLine "sll $4, $3, 4".toList = .ok (.sll 0 3 4 4) := by decide

theorem witness_OpcodeRowsDoNotOverlap :
    (⟨.halt, 0x58000000, 0xFFFFFFFF⟩ : OpcodeRow) ∈ opcodeRows ∧
    OpcodeRow.admits ⟨.halt, 0x58000000, 0xFFFFFFFF⟩ 0x58000000 = true := by decide

theorem witness_ReservedWordRaises :
    let s := program [0x00221FE0]
    s.fault = none ∧ s.halted = false ∧ s.fetchWord = .ok 0x00221FE0 ∧
      opcodeRows.all (fun r => !r.admits 0x00221FE0) = true := by decide

theorem witness_AssembleOfSyntaxText : (Instr.sll 0 3 4 31).wellFormed = true := by decide

/-- The farthest labels a branch reaches, backward and forward, and a jump whose delay slot is in the next region. -/
theorem witness_LabelsAreReached :
    labelOffset 0x30000 0x10004 = some 0x8000 ∧ labelOffset 0x30000 0x50000 = some 0x7FFF ∧
    labelTarget 0x0FFFFFFC 0x10000040 = some 0x10 ∧
    (at_ 0x30000 0x30004 []).npc = 0x30000 + 4 ∧ (start []).reg 1 = (start []).reg 2 ∧
    (start [(1, 4)]).reg 1 ≠ (start []).reg 0 ∧ isAligned 0x30000 = true ∧
    ((0x10004 : Word) - (0x30000 + 4)).toInt = -131072 ∧ ((0x50000 : Word) - (0x30000 + 4)).toInt = 131068 := by decide

theorem witness_StepRunsTheDecodedInstruction :
    let s := program [0x20010005]
    s.fault = none ∧ s.halted = false ∧ isAligned s.pc = true ∧ (∀ a ∈ wordAddrs s.pc, s.inText a = true) ∧
      s.byte s.pc = some 0x20 ∧ s.byte (s.pc + 1) = some 0x01 ∧ s.byte (s.pc + 2) = some 0x00 ∧
      s.byte (s.pc + 3) = some 0x05 ∧ decode (s.cfg.byteOrder.wordOf 0x20 0x01 0x00 0x05) = .ok (.addi 0 1 5) := by
  and_intros <;> first | rfl | exact List.all_eq_true.mp rfl

theorem witness_StepChecksTheFetchInOrder :
    let misaligned := { start [] with pc := 1 }
    let unmapped := { start [] with pc := 0x10 }
    let unwritten := { start [] with pc := 0xC }
    (misaligned.fault = none ∧ misaligned.halted = false ∧ misaligned.pc.extractLsb' 0 2 ≠ 0#2) ∧
    (unmapped.fault = none ∧ unmapped.halted = false ∧ unmapped.pc.extractLsb' 0 2 = 0#2 ∧
      unmapped.inText unmapped.pc = false) ∧
    (unwritten.fault = none ∧ unwritten.halted = false ∧ unwritten.pc.extractLsb' 0 2 = 0#2 ∧
      (∀ a ∈ wordAddrs unwritten.pc, unwritten.inText a = true) ∧ unwritten.byte unwritten.pc = none) := by
  and_intros <;> first | rfl | exact List.all_eq_true.mp rfl | decide

theorem witness_LoadedWordRuns : decodeTableWord 32 0x0000001A = some (.div 0 0) := by decide

theorem witness_HaltIsTheNormalEnd :
    let s := { start [] with halted := true }
    s.halted = true ∧ s.fault = none ∧ exec (.mfhi 1) s = .next ((s.setReg 1 0).advance 4) ∧ step s = .next s :=
  ⟨rfl, rfl, rfl, rfl⟩

theorem witness_HaltStopsForGood :
    let s := program [0x58000000]
    s.fault = none ∧ s.halted = false ∧ s.fetchWord = .ok 0x58000000 ∧
      (0x58000001 : Word).extractLsb' 26 6 = 0b010110#6 ∧ (0x58000001 : Word) ≠ 0x58000000 := by decide

theorem witness_LoadUpperImmediateRule :
    parseLine "lui $1, 0x1234".toList = .ok (.lui 0 1 0x1234) ∧ (Instr.lui 0 1 0x1234).mnemonic = .lui := by decide

theorem witness_FaultIsFinal :
    let s := (start []).raise (.textWrite 4)
    s.fault = some (.textWrite 4) ∧ s.fault ≠ none ∧ exec (.jr 1) s = .next (s.jumpTo 0) := ⟨rfl, by decide, rfl⟩

theorem witness_StoppedStatesAnswer :
    let s := { start [] with halted := true }
    s.fault = none ∧ s.halted = true ∧ (s.raise (.textWrite 4)).fault = some (.textWrite 4) := ⟨rfl, rfl, rfl⟩

theorem witness_FaultChangesNothingElse :
    step State.reset = .next (State.reset.raise (.fetchUnmapped 0)) ∧
    (State.reset.raise (.fetchUnmapped 0)).fault = some (.fetchUnmapped 0) := ⟨rfl, rfl⟩

/-- A fault, and one instruction of each of the four ways; a `pc` that is no multiple of 4. -/
theorem witness_PcChangesInFourWays :
    let s := start [(1, 0x7FFFFFFF), (2, 1)]
    s.fault = none ∧ exec (.add 1 2 3) s = .next (s.raise (.integerOverflow 0x100)) ∧
    exec (.beq 1 1 0x7FFF) s = .next (s.advance 0x1FFFC) ∧ exec (.bne 1 1 5) s = .next (s.advance 4) ∧
    exec (.j 0) s = .next (s.jumpTo 0) ∧ exec (.jr 1) s = .next (s.jumpTo 0x7FFFFFFF) ∧
    exec .halt s = .next s.halt ∧ exec (.asrt 1 1) s = .next (s.advance 4) ∧
    ({ s with pc := 3 } : State).pc.extractLsb' 0 2 ≠ 0#2 := ⟨rfl, rfl, rfl, rfl, rfl, rfl, rfl, rfl, by decide⟩

/-- The same statement's JR to an address that is no multiple of 4, and an instruction in its delay slot (program V3). -/
theorem witness_PcChangesInFourWays_jr :
    let s := start [(1, 6)]
    let t := s.jumpTo 6
    let u := (t.setReg 2 1).advance 4
    exec (.jr 1) s = .next t ∧ exec (.addi 0 2 1) t = .next u ∧ Instr.addi 0 2 1 ≠ .halt ∧ u.fault = none ∧
      u.halted = false ∧ (s.reg 1).extractLsb' 0 2 ≠ 0#2 := ⟨rfl, rfl, by decide, rfl, rfl, by decide⟩

/-- A jump at 0 with ADDI in its delay slot. -/
theorem witness_DelaySlotExecutesNext :
    let s := program [0x08000004, 0x20010005]
    let t := s.jumpTo 0x10
    (Instr.j 4).isControl = true ∧ exec (.j 4) s = .next t ∧ t.fault = none ∧ t.halted = false ∧
      t.fetchDecode = .ok (.addi 0 1 5) ∧ step t = .next ((t.setReg 1 5).advance 4) := ⟨rfl, rfl, rfl, rfl, rfl, rfl⟩

/-- The addresses of the first word. -/
theorem lt_four {a : Word} (h : a.toNat < 4) : a = 0 ∨ a = 1 ∨ a = 2 ∨ a = 3 := by bv_omega

theorem program_halt_inText (a : Word) : (program [0x58000000]).inText a = true → a.toNat < 4 := by
  simp [program, State.launch, Launch.ofProgram, State.inText, State.setBytes, State.setWords, State.setWord, State.setByte,
    WordRange.holds]

/-- A launch the spec admits: the one word HALT. -/
theorem witness_ProperLaunchIsValid : (Launch.ofProgram .big [0x58000000]).Proper := by
  refine ⟨by decide, List.all_eq_true.mp rfl, fun a h => ?_, fun ab h => (List.not_mem_nil h).elim, fun aw h => ?_⟩
  · obtain rfl | rfl | rfl | rfl := lt_four (program_halt_inText a h) <;> decide
  · obtain rfl : aw = (0, 0x58000000) := List.mem_singleton.mp h
    exact List.all_eq_true.mp rfl

/-- A valid running state whose step executes an instruction. -/
theorem witness_StepKeepsValid :
    (program [0x58000000]).Valid ∧ step (program [0x58000000]) = .next (program [0x58000000]).halt := by
  refine ⟨⟨by decide, fun a h => ?_, fun a h => ?_, by decide, by decide⟩, rfl⟩
  · by_cases ha : a.toNat < 4
    · obtain rfl | rfl | rfl | rfl := lt_four ha <;> decide
    · have h0 : a ∉ wordAddrs 0#32 := fun hm => ha (by
        simp [wordAddrs] at hm
        obtain rfl | rfl | rfl | rfl := hm <;> decide)
      have hn : (program [0x58000000]).byte a = none := State.setWord_byte_other _ _ h0
      rw [hn] at h
      cases h
  · obtain rfl | rfl | rfl | rfl := lt_four (program_halt_inText a h) <;> decide

/-- A step that stores beside `TEXT`; the last byte and the last word of `TEXT`. -/
theorem witness_TextAndParametersStayFixed :
    let s := { program [0xA0000004, 0x58000000] with npc := 4 }
    let t := start [(2, 0xC)]
    (∃ u, step (program [0xA0010008, 0x58000000]) = .next u) ∧ s.inText 3 = true ∧
      s.wordAt 4 = .ok 0x58000000 ∧ (∀ x ∈ wordAddrs 4, s.inText x = true) ∧
      t.inText (t.reg 2 + (3 : Imm16).signExtend 32) = true ∧
      isAligned (t.reg 2 + (0 : Imm16).signExtend 32) = true ∧
      (∀ a ∈ wordAddrs (t.reg 2 + (0 : Imm16).signExtend 32), t.isMapped a = true) ∧
      t.inText (t.reg 2 + (0 : Imm16).signExtend 32) = true := by
  refine ⟨⟨_, rfl⟩, ?_⟩
  and_intros <;> first | rfl | exact List.all_eq_true.mp rfl

/-- Each fault an instruction can record. -/
theorem witness_FaultsByInstruction :
    let s := start [(1, 0x7FFFFFFF), (2, 0x1000), (3, 0x204)]
    s.fault = none ∧
    exec (.addi 1 4 1) s = .next (s.raise (.integerOverflow 0x100)) ∧
    exec (.lw 2 4 1) s = .next (s.raise (.misalignedAccess 0x1001 .read)) ∧
    exec (.sw 2 4 0) s = .next (s.raise (.unmappedAccess 0x1000 .write .word)) ∧
    exec (.lb 3 4 0) s = .next (s.raise (.uninitialisedRead 0x204)) ∧
    exec (.sb 0 4 0xF) s = .next (s.raise (.textWrite 0xF)) ∧
    exec (.asrti 0 1) s = .next (s.raise (.assertFailed 0x100 0 1)) ∧
    exec (.lb 2 4 0) s = .next (s.raise (.unmappedAccess 0x1000 .read .byte)) ∧
    exec (.sb 2 4 0xFFFF) s = .next ((s.setByte 0xFFF 0).advance 4) :=
  ⟨rfl, rfl, rfl, rfl, rfl, rfl, rfl, rfl, rfl⟩

theorem witness_LaunchLeavesWhatTheHostSupplies :
    (∀ ab ∈ (Launch.ofProgram .big [0x58000000]).bytes, (4 : Word) ≠ ab.1) ∧
    ∀ aw ∈ (Launch.ofProgram .big [0x58000000]).words, (4 : Word) ∉ wordAddrs aw.1 := by
  refine ⟨fun ab h => (List.not_mem_nil h).elim, fun aw h => ?_⟩
  obtain rfl : aw = (0, 0x58000000) := List.mem_singleton.mp h
  decide

/-- The same statement's supplied words and bytes: a word covered by none after it, the last byte supplied at its address. -/
theorem witness_LaunchLeavesWhatTheHostSupplies_supplied :
    let l := { Launch.ofProgram .big [0x58000000] with bytes := [(8, 1), (8, 2)], words := [(0, 5), (4, 6)] }
    (l.words = [] ++ (0, 5) :: [(4, 6)] ∧ ∀ x ∈ wordAddrs 0, x ∉ wordAddrs 4) ∧
    (l.bytes = [(8, 1)] ++ (8, 2) :: [] ∧ (8 : Word) ∉ wordAddrs 0 ∧ (8 : Word) ∉ wordAddrs 4) ∧
    (State.launch l).byte 8 = some 2 ∧ (State.launch l).wordAt 0 = .ok 5 := by
  refine ⟨⟨rfl, fun x h => ?_⟩, ⟨rfl, by decide, by decide⟩, rfl, rfl⟩
  simp only [wordAddrs, List.mem_cons, List.not_mem_nil, or_false] at h
  obtain rfl | rfl | rfl | rfl := h <;> decide

/-- The longest program, and the last of two words. -/
theorem witness_ProgramIsPlaced :
    (∀ w : Word, (List.replicate 1024 w).length ≤ 1024) ∧ ([0, 0x58000000] : List Word)[1]? = some 0x58000000 ∧
    ([0] : List Word) ≠ [] := ⟨fun w => List.length_replicate.le, rfl, by decide⟩

theorem witness_RegisterZeroIsHardwired :
    let s := start [(1, 0x7FFFFFFF), (2, 1)]
    (Instr.lui 0 0 5).resultReg = some 0 ∧ s.fault = none ∧ exec (.lui 0 0 5) s = .next (s.advance 4) ∧
    exec (.add 1 2 3) s = .next { s with fault := some (.integerOverflow 0x100) } ∧
    exec (.addi 1 3 1) s = .next { s with fault := some (.integerOverflow 0x100) } ∧
    exec (.sub 2 1 3) { s.setReg 2 0x80000000 with pc := 8 } =
      .next { s.setReg 2 0x80000000 with pc := 8, fault := some (.integerOverflow 8) } ∧
    exec (.lb 1 3 0) s = .next { s with fault := some (.unmappedAccess 0x7FFFFFFF .read .byte) } ∧
    exec (.lw 1 3 0) s = .next { s with fault := some (.misalignedAccess 0x7FFFFFFF .read) } :=
  ⟨rfl, rfl, rfl, rfl, rfl, rfl, rfl, rfl⟩

/-- The largest and the smallest result that fits, for each of the three. -/
theorem witness_AddAndSubResults :
    let s := start [(1, 0x40000000), (2, 0x3FFFFFFF), (3, 0x80000000), (4, 0xFFFFFFFF), (5, 0x80008000)]
    (s.reg 1).toInt + (s.reg 2).toInt = 2 ^ 31 - 1 ∧ (s.reg 3).toInt + (s.reg 0).toInt = -2 ^ 31 ∧
    (s.reg 2).toInt + (0x7FFF : Imm16).toInt ≤ 2 ^ 31 - 1 ∧ (s.reg 5).toInt + (0x8000 : Imm16).toInt = -2 ^ 31 ∧
    (s.reg 4).toInt - (s.reg 3).toInt = 2 ^ 31 - 1 ∧ (s.reg 3).toInt - (s.reg 0).toInt = -2 ^ 31 := by decide

/-- One above the largest and one below the smallest result that fits. -/
theorem witness_SignedOverflowRaises :
    let s := start [(1, 0x7FFFFFFF), (2, 1), (3, 0x80000000), (4, 0xFFFFFFFF)]
    (s.reg 1).toInt + (s.reg 2).toInt = 2 ^ 31 ∧ (s.reg 3).toInt + (s.reg 4).toInt = -2 ^ 31 - 1 ∧
    (s.reg 1).toInt + (1 : Imm16).toInt = 2 ^ 31 ∧ (s.reg 3).toInt + (0xFFFF : Imm16).toInt = -2 ^ 31 - 1 ∧
    (s.reg 1).toInt - (s.reg 4).toInt = 2 ^ 31 ∧ (s.reg 3).toInt - (s.reg 2).toInt = -2 ^ 31 - 1 := by decide

theorem witness_DivideResult :
    let s := start [(4, 0x80000000), (5, 1)]
    s.reg 5 ≠ 0 ∧ ¬ (s.reg 4 = 0x80000000#32 ∧ s.reg 5 = 0xFFFFFFFF#32) := by decide

theorem witness_DivideCornerCases :
    let s := start [(4, 0x80000000), (5, 0xFFFFFFFF)]
    s.reg 0 = 0 ∧ (s.reg 4 = 0x80000000#32 ∧ s.reg 5 = 0xFFFFFFFF#32) := by decide

theorem witness_ResultsReadableAtOnce :
    let s := start [(4, 7), (5, 0xFFFFFFFD)]
    (∃ t, exec (.mult 4 5) s = .next t) ∧ (∃ t, exec (.div 4 5) s = .next t) ∧ (3 : RegNo) ≠ 0 ∧ s.reg 5 ≠ 0 ∧
      ¬ (s.reg 4 = 0x80000000#32 ∧ s.reg 5 = 0xFFFFFFFF#32) := ⟨⟨_, rfl⟩, ⟨_, rfl⟩, by decide⟩

/-- The first unmapped byte, an unwritten byte, a byte with a value. -/
theorem witness_LoadByteReadsOneByte :
    let s := start [(2, 0x200)]
    s.reg 2 + (0xE00 : Imm16).signExtend 32 = 0x1000 ∧ s.isMapped 0x1000 = false ∧
    s.reg 2 + (0xFFFF : Imm16).signExtend 32 = 0x1FF ∧ s.isMapped 0x1FF = true ∧ s.byte 0x1FF = none ∧
    s.reg 2 + (0 : Imm16).signExtend 32 = 0x200 ∧ s.isMapped 0x200 = true ∧ s.byte 0x200 = some 0x12 := by decide

/-- Each clause; a word half written; the first unmapped word. -/
theorem witness_LoadWordReadsFourBytes :
    let s := (start [(2, 0x200)]).setByte 0x204 1
    s.reg 2 + (1 : Imm16).signExtend 32 = 0x201 ∧ (0x201 : Word).extractLsb' 0 2 ≠ 0#2 ∧
    (0x1000 : Word).extractLsb' 0 2 = 0#2 ∧ s.isMapped 0x1000 = false ∧
    (0x204 : Word).extractLsb' 0 2 = 0#2 ∧ (∀ a ∈ wordAddrs 0x204, s.isMapped a = true) ∧ s.byte 0x207 = none ∧
    (0x200 : Word).extractLsb' 0 2 = 0#2 ∧ (∀ a ∈ wordAddrs 0x200, s.isMapped a = true) ∧
    s.byte 0x200 = some 0x12 ∧ s.byte 0x201 = some 0x34 ∧ s.byte 0x202 = some 0x56 ∧ s.byte 0x203 = some 0x78 := by
  and_intros <;> first | rfl | exact List.all_eq_true.mp rfl | decide

/-- The first unmapped byte, the last byte of `TEXT`, the first byte after it. -/
theorem witness_StoreByteWritesOneByte :
    let s := start [(2, 0x10)]
    s.isMapped 0x1000 = false ∧
    s.reg 2 + (0xFFFF : Imm16).signExtend 32 = 0xF ∧ s.isMapped 0xF = true ∧ s.inText 0xF = true ∧
    s.reg 2 + (0 : Imm16).signExtend 32 = 0x10 ∧ s.isMapped 0x10 = true ∧ s.inText 0x10 = false := by decide

/-- Each clause: a misaligned address, the first unmapped word, the last word of `TEXT`, the first word after it. -/
theorem witness_StoreWordWritesFourBytes :
    let s := start [(2, 0x10)]
    (0x12 : Word).extractLsb' 0 2 ≠ 0#2 ∧ (0x1000 : Word).extractLsb' 0 2 = 0#2 ∧ s.isMapped 0x1000 = false ∧
    (0xC : Word).extractLsb' 0 2 = 0#2 ∧ (∀ a ∈ wordAddrs 0xC, s.isMapped a = true) ∧ s.inText 0xC = true ∧
    s.reg 2 + (0 : Imm16).signExtend 32 = 0x10 ∧ (∀ a ∈ wordAddrs 0x10, s.isMapped a = true) ∧
    (∀ a ∈ wordAddrs 0x10, s.inText a = false) := by
  refine ⟨by decide, rfl, rfl, rfl, List.all_eq_true.mp rfl, rfl, rfl, List.all_eq_true.mp rfl, fun a h => ?_⟩
  simp only [wordAddrs, List.mem_cons, List.not_mem_nil, or_false] at h
  obtain rfl | rfl | rfl | rfl := h <;> rfl

theorem witness_StoreThenLoadReturnsTheValue :
    let s := start [(1, 0xFFFFFF80), (2, 0x300)]
    let t := (s.setWord 0x300 0xFFFFFF80).advance 4
    let u := (s.setByte 0x300 0x80).advance 4
    s.fault = none ∧ exec (.sw 2 1 0) s = .next t ∧ t.fault = none ∧ exec (.sb 2 1 0) s = .next u ∧ u.fault = none ∧
      s.reg 2 + (0 : Imm16).signExtend 32 = t.reg 2 + (0 : Imm16).signExtend 32 ∧
      s.reg 2 + (0 : Imm16).signExtend 32 = u.reg 2 + (0 : Imm16).signExtend 32 :=
  ⟨rfl, rfl, rfl, rfl, rfl, rfl, rfl⟩

/-- The rule's word, its first and last byte, and a byte stored over the last byte of a word. -/
theorem witness_MixedWidthFollowsByteOrder :
    let s := start [(1, 0x12345678), (2, 0x300), (3, 0x200)] .little
    let t := (s.setWord 0x300 0x12345678).advance 4
    let u := (s.setByte 0x203 0x78).advance 4
    s.fault = none ∧ exec (.sw 2 1 0) s = .next t ∧ t.fault = none ∧ s.reg 1 = 0x12345678 ∧
      t.reg 2 + (3 : Imm16).signExtend 32 = s.reg 2 + (0 : Imm16).signExtend 32 + BitVec.ofNat 32 (3 : Fin 4).val ∧
      t.reg 2 + (0 : Imm16).signExtend 32 = s.reg 2 + (0 : Imm16).signExtend 32 + BitVec.ofNat 32 (0 : Fin 4).val ∧
      exec (.sb 3 1 3) s = .next u ∧ u.fault = none ∧ (0x200 : Word) = u.reg 3 + (0 : Imm16).signExtend 32 ∧
      s.reg 3 + (3 : Imm16).signExtend 32 = 0x200 + BitVec.ofNat 32 (3 : Fin 4).val ∧ isAligned 0x200 = true ∧
      (∀ x ∈ wordAddrs 0x200, s.isMapped x = true) ∧ s.wordAt 0x200 = .ok 0x12345678 :=
  ⟨rfl, rfl, rfl, rfl, rfl, rfl, rfl, rfl, rfl, rfl, rfl, List.all_eq_true.mp rfl, rfl⟩

theorem witness_TargetsAreAligned :
    let s := start [(1, 6)]
    (Instr.beq 0 0 0x8000).mnemonic = .beq ∧ exec (.beq 0 0 0x8000) s = .next (s.advance 0xFFFE0000) ∧
      s.npc.toNat % 4 = 0 ∧ s.fault = none ∧ s.halted = false ∧ ({ s with pc := 6 } : State).pc.toNat % 4 ≠ 0 :=
  ⟨rfl, rfl, by decide, rfl, rfl, by decide⟩

theorem witness_JumpInADelaySlot :
    exec (.j 4) (start []) = .next ((start []).jumpTo 0x10) ∧ (start []).reg 1 = (start []).reg 2 := ⟨rfl, by decide⟩

/-- The most negative immediate, and a value that only zero extension would make equal. -/
theorem witness_AssertResults :
    let s := start [(1, 0xFFFF8000), (2, 0x00008000)]
    s.reg 1 = s.reg 1 ∧ s.reg 1 ≠ s.reg 2 ∧ (s.reg 1).toInt = (0x8000 : Imm16).toInt ∧
      (s.reg 2).toInt ≠ (0x8000 : Imm16).toInt := by decide

theorem witness_RegisterResultFrame :
    let s := start [(1, 2), (2, 3)]
    (Instr.add 1 2 3).resultReg = some 3 ∧ exec (.add 1 2 3) s = .next ((s.setReg 3 5).advance 4) ∧
      (4 : RegNo) ≠ 3 := ⟨rfl, rfl, by decide⟩

theorem witness_MultiplyDivideFrame :
    (Instr.div 4 5).mnemonic = .div ∧ (∃ t, exec (.div 4 5) (start []) = .next t) ∧
    (Instr.mult 4 5).mnemonic = .mult ∧ (∃ t, exec (.mult 4 5) (start []) = .next t) := ⟨rfl, ⟨_, rfl⟩, rfl, ⟨_, rfl⟩⟩

theorem witness_StoreFrame :
    let s := start [(1, 0x11223344), (2, 0x300)]
    exec (.sb 2 1 0) s = .next ((s.setByte 0x300 0x44).advance 4) ∧ (0x301 : Word) ≠ s.ea 2 0 ∧
      exec (.sw 2 1 0) s = .next ((s.setWord 0x300 0x11223344).advance 4) ∧ (0x304 : Word) ∉ wordAddrs (s.ea 2 0) :=
  ⟨rfl, by decide, rfl, by decide⟩

theorem witness_ControlTransferFrame :
    let s := start []
    (Instr.jal 8).isControl = true ∧ exec (.jal 8) s = .next ((s.setReg 31 0x108).jumpTo 0x20) ∧
      ((Instr.jal 8).mnemonic = .jal → (30 : RegNo) ≠ 31) := ⟨rfl, rfl, fun _ => by decide⟩

theorem witness_TestingFrame :
    let s := start []
    (Instr.asrti 0 1).mnemonic = .asrti ∧ exec (.asrti 0 1) s = .next (s.raise (.assertFailed 0x100 0 1)) ∧
      Instr.halt.mnemonic = .halt ∧ exec .halt s = .next s.halt := ⟨rfl, rfl, rfl, rfl⟩

end Sys2Proof.Tests
end

section
/-!
PROOFS. DIV in its corner cases, and MULT (`43_multiply_divide.md` rules R95, R96).
-/

namespace Sys2Proof.Machine

/-! ### The arithmetic of the two instructions -/

/-- The two corner cases of rule R95, as a proposition. -/
theorem divUndefined_iff {a b : Word} :
    divUndefined a b = true ↔ b = 0#32 ∨ a = 0x80000000#32 ∧ b = 0xFFFFFFFF#32 := by
  simp [divUndefined]

/-- The low word of the product of the operands as unsigned numbers (rule R96). -/
theorem ofNat_toNat_mul_toNat (a b : Word) : BitVec.ofNat 32 (a.toNat * b.toNat) = a * b := by
  rw [BitVec.ofNat_mul, BitVec.ofNat_toNat, BitVec.ofNat_toNat, BitVec.setWidth_eq, BitVec.setWidth_eq]

/-- The low word of the product of the operands as signed numbers (rule R96). -/
theorem ofInt_toInt_mul_toInt (a b : Word) : BitVec.ofInt 32 (a.toInt * b.toInt) = a * b := by
  rw [BitVec.ofInt_mul, BitVec.ofInt_toInt, BitVec.ofInt_toInt]

/-! ### What each instruction answers -/

variable {rs rt : RegNo} {s : State}

theorem exec_mult :
    exec (.mult rs rt) s =
      .next ((((s.setLo (s.reg rs * s.reg rt)).setHi (s.anyWord 0)).spend 1).advance 4#32) := rfl

theorem exec_div_of_undefined (h : divUndefined (s.reg rs) (s.reg rt) = true) :
    exec (.div rs rt) s =
      .next ((((s.setLo (s.anyWord 0)).setHi (s.anyWord 1)).spend 2).advance 4#32) :=
  if_pos h

/-! ### The obligations -/

/-- Settles O39: both readings of the operands give the product of the two words, which is what `LO` receives. -/
theorem multiplyResult : Obligations.MultiplyResult := by
  intro rs rt s
  rw [ofNat_toNat_mul_toNat, ofInt_toInt_mul_toInt]
  exact ⟨exec_mult, rfl⟩

/-- Settles O38: its hypothesis is the guard of DIV's first branch, which draws two free values. -/
theorem divideCornerCases : Obligations.DivideCornerCases :=
  fun _ _ _ h => exec_div_of_undefined (divUndefined_iff.mpr h)

end Sys2Proof.Machine
end

section
/-!
PROOFS. The state, step by step: the model's invariant, the fetch, how `pc`, `halted` and `fault` change, the launch state, and
the frame of every instruction (`10_state.md`).
-/

namespace Sys2Proof.Machine

variable {i : Instr} {s t : State}

/-! ### The model's invariant (`20_memory.md` rule R43, `10_state.md` rule R24) -/

/-- Only mapped addresses hold bytes (`10_state.md` rule R24): the part of `State.Valid` that placing bytes must keep. -/
def State.OnlyMapped (s : State) : Prop := ∀ a, (s.byte a).isSome = true → s.isMapped a = true

theorem State.OnlyMapped.setByte (h : s.OnlyMapped) {a : Word} (ha : s.isMapped a = true) (b : Byte) :
    (s.setByte a b).OnlyMapped := by
  intro x hx
  rw [State.setByte_byte] at hx
  split at hx
  · next e => exact e ▸ ha
  · exact h x hx

theorem State.OnlyMapped.setWord (h : s.OnlyMapped) {a : Word} (ha : ∀ x ∈ wordAddrs a, s.isMapped x = true) (w : Word) :
    (s.setWord a w).OnlyMapped := by
  simp only [wordAddrs, List.forall_mem_cons] at ha
  obtain ⟨h0, h1, h2, h3, -⟩ := ha
  exact (((h.setByte h0 _).setByte h1 _).setByte h2 _).setByte h3 _

theorem State.OnlyMapped.setBytes (h : s.OnlyMapped) {bytes : List (Word × Byte)}
    (ha : ∀ ab ∈ bytes, s.isMapped ab.1 = true) : (s.setBytes bytes).OnlyMapped := by
  induction bytes generalizing s with
  | nil => exact h
  | cons ab rest ih =>
    rw [List.forall_mem_cons] at ha
    exact ih (h.setByte ha.1 ab.2) ha.2

theorem State.OnlyMapped.setWords (h : s.OnlyMapped) {words : List (Word × Word)}
    (ha : ∀ aw ∈ words, ∀ x ∈ wordAddrs aw.1, s.isMapped x = true) : (s.setWords words).OnlyMapped := by
  induction words generalizing s with
  | nil => exact h
  | cons aw rest ih =>
    rw [List.forall_mem_cons] at ha
    exact ih (h.setWord ha.1 aw.2) ha.2

/-- The invariant speaks of memory, the parameters, slot 0, `halted` and `fault` alone. -/
theorem State.Valid.of_same_memory (h : s.Valid) (hm : t.mem = s.mem) (hc : t.cfg = s.cfg) (hz : t.regs[0] = s.regs[0])
    (hs : t.halted = true → t.fault = none) : t.Valid where
  memWf := hm ▸ h.memWf
  onlyMapped a ha := by
    have := h.onlyMapped a
    simp only [State.byte, State.isMapped, State.inText, hm, hc] at ha this ⊢
    exact this ha
  textHasValue a ha := by
    have := h.textHasValue a
    simp only [State.byte, State.inText, hm, hc] at ha this ⊢
    exact this ha
  slotZero := hz.trans h.slotZero
  oneStop := hs

theorem State.Valid.setByte (h : s.Valid) {a : Word} (ha : s.isMapped a = true) (b : Byte) : (s.setByte a b).Valid where
  memWf := State.setByte_memWf a b h.memWf
  onlyMapped := State.OnlyMapped.setByte h.onlyMapped ha b
  textHasValue x hx := by
    rw [State.setByte_byte]
    split
    · rfl
    · exact h.textHasValue x hx
  slotZero := h.slotZero
  oneStop := h.oneStop

theorem State.Valid.setWord (h : s.Valid) {a : Word} (ha : ∀ x ∈ wordAddrs a, s.isMapped x = true) (w : Word) :
    (s.setWord a w).Valid where
  memWf := State.setWord_memWf a w h.memWf
  onlyMapped := State.OnlyMapped.setWord h.onlyMapped ha w
  textHasValue x hx := State.setWord_byte_isSome a w (h.textHasValue x hx)
  slotZero := h.slotZero
  oneStop := h.oneStop

theorem State.Valid.advance (h : s.Valid) (k : Word) : (s.advance k).Valid := h.of_same_memory rfl rfl rfl h.oneStop

theorem State.Valid.jumpTo (h : s.Valid) (a : Word) : (s.jumpTo a).Valid := h.of_same_memory rfl rfl rfl h.oneStop

theorem State.Valid.setReg (h : s.Valid) (r : RegNo) (v : Word) : (s.setReg r v).Valid :=
  h.of_same_memory (by simp) (by simp) (by simp) (by simpa using h.oneStop)

/-- A running processor that records a fault is not halted. -/
theorem State.Valid.raise (h : s.Valid) (hh : s.halted = false) (f : Fault) : (s.raise f).Valid :=
  h.of_same_memory rfl rfl rfl (by simp [hh])

/-- What an instruction does in a running processor keeps the invariant. -/
theorem Effect.keeps_valid (e : Effect s i t) (h : s.Valid) (hf : s.fault = none) (hh : s.halted = false) : t.Valid := by
  cases e with
  | raised f => exact h.raise hh f
  | result d v => exact (h.setReg d v).advance _
  | hiLo lo hi n => exact h.of_same_memory rfl rfl rfl h.oneStop
  | storeByte _ _ _ hm => exact (h.setByte hm _).advance _
  | storeWord _ _ _ _ hm => exact (h.setWord (List.all_eq_true.mp hm) _).advance _
  | transfer target => exact h.jumpTo target
  | link target26 => exact (h.setReg _ _).jumpTo _
  | passed => exact h.advance _
  | halted => exact h.of_same_memory rfl rfl rfl fun _ => hf

/-- Settles O20: the halted processor stays as it is, a fault of the fetch leaves memory, and `Effect.keeps_valid` for
the instruction at `pc`. -/
theorem stepKeepsValid : Obligations.StepKeepsValid := by
  intro s t h hst
  obtain ⟨hf, ⟨-, rfl⟩ | ⟨hh, f, -, rfl⟩ | ⟨hh, i, -, -, e⟩⟩ := step_effect hst
  · exact h
  · exact h.raise hh f
  · exact e.keeps_valid h hf hh

/-- Settles O21: no byte has a value, and `TEXT` is empty. -/
theorem resetIsValid : Obligations.ResetIsValid where
  memWf := State.reset_memWf
  onlyMapped _ h := nomatch h
  textHasValue _ h := nomatch h
  slotZero := rfl
  oneStop h := nomatch h

/-- Settles O26: each part is read off `State.reset`. -/
theorem resetLeavesWhatTheSpecGives : Obligations.ResetLeavesWhatTheSpecGives :=
  ⟨rfl, rfl, State.reg_zero _, rfl, rfl, fun _ => rfl⟩

/-! ### The launch state (`70_reset_and_hazards.md` rule R128) -/

/-- The launch state before the host's bytes and words are placed. -/
def Launch.bare (l : Launch) : State where
  regs := l.regs.set 0 0#32
  hi := l.hi
  lo := l.lo
  pc := l.resetPc
  npc := l.resetPc + 4#32
  mem := []
  halted := false
  fault := none
  draws := 0
  cfg := l.cfg

theorem State.launch_eq (l : Launch) : State.launch l = (l.bare.setBytes l.bytes).setWords l.words := rfl

/-- Placing bytes and words writes memory alone. -/
theorem State.launch_keep (l : Launch) : State.launch l = { l.bare with mem := (State.launch l).mem } := by
  rw [State.launch_eq, State.setWords_keep, State.setBytes_keep]

theorem State.launch_isMapped (l : Launch) (a : Word) : (State.launch l).isMapped a = l.bare.isMapped a := by
  rw [State.launch_keep]; rfl

theorem State.setBytes_isMapped (s : State) (bytes : List (Word × Byte)) (a : Word) :
    (s.setBytes bytes).isMapped a = s.isMapped a := by
  rw [State.setBytes_keep]; rfl

@[simp] theorem State.launch_halted (l : Launch) : (State.launch l).halted = false := by rw [State.launch_keep]; rfl

@[simp] theorem State.launch_fault (l : Launch) : (State.launch l).fault = none := by rw [State.launch_keep]; rfl

/-- Settles O22: `TEXT` holds values by hypothesis, and the bytes and words placed are mapped. -/
theorem properLaunchIsValid : Obligations.ProperLaunchIsValid := by
  intro l ⟨_, _, htext, hbytes, hwords⟩
  simp only [State.launch_isMapped] at hbytes hwords
  have hbare : l.bare.OnlyMapped := fun _ h => nomatch h
  exact {
    memWf := State.launch_memWf l
    onlyMapped := (hbare.setBytes hbytes).setWords (by simpa only [State.setBytes_isMapped] using hwords)
    textHasValue := htext
    slotZero := by rw [State.launch_keep]; simp [Launch.bare]
    oneStop := by simp }

/-- A register of the launch other than `x[0]` is the host's. -/
theorem State.launch_reg (l : Launch) {r : RegNo} (h : r ≠ 0) : (State.launch l).reg r = l.regs[r.toNat] := by
  have h0 : 0 ≠ r.toNat := fun e => h (BitVec.eq_of_toNat_eq e.symm)
  rw [State.launch_keep]
  exact (if_neg h).trans (Vector.getElem_set_ne (by decide) _ h0)

/-- A placed byte stays when no later byte is placed at its address (rule R131). -/
theorem State.setBytes_byte_placed {pre post : List (Word × Byte)} {a : Word} {b : Byte}
    (h : ∀ ab ∈ post, a ≠ ab.1) : (s.setBytes (pre ++ (a, b) :: post)).byte a = some b := by
  rw [State.setBytes_append]
  change (State.setBytes (State.setByte _ a b) post).byte a = some b
  rw [State.setBytes_byte_other h, State.setByte_byte, if_pos rfl]

/-- A placed word stays when no later word overlaps it. -/
theorem State.setWords_wordAt_placed {pre post : List (Word × Word)} {a w : Word}
    (h : ∀ aw ∈ post, ∀ x ∈ wordAddrs a, x ∉ wordAddrs aw.1) :
    (s.setWords (pre ++ (a, w) :: post)).wordAt a = .ok w := by
  rw [State.setWords_append]
  change (State.setWords (State.setWord _ a w) post).wordAt a = .ok w
  rw [State.setWords_wordAt_other h, State.setWord_wordAt]

/-- Settles O27: the state outside memory is `Launch.bare`, and memory is read through the bytes and words placed. -/
theorem launchLeavesWhatTheHostSupplies : Obligations.LaunchLeavesWhatTheHostSupplies := by
  intro l
  have hk := State.launch_keep l
  refine ⟨by rw [hk]; rfl, by rw [hk]; rfl, State.launch_halted l, State.launch_fault l, State.reg_zero _,
    fun _ => State.launch_reg l, by rw [hk]; rfl, by rw [hk]; rfl, by rw [hk]; rfl, ?word, ?byte, ?nothing⟩
  case word =>
    intro pre a w post hw hpost
    rw [State.launch_eq, hw]
    exact State.setWords_wordAt_placed hpost
  case byte =>
    intro pre a b post hb hpost hwords
    rw [State.launch_eq, State.setWords_byte_other hwords, hb]
    exact State.setBytes_byte_placed hpost
  case nothing =>
    intro a hbytes hwords
    rw [State.launch_eq, State.setWords_byte_other hwords, State.setBytes_byte_other hbytes]
    rfl

/-! ### The fetch (`10_state.md` rule R27, `20_memory.md` rules R37, R41) -/

/-- The faults of a fetch, in order. -/
theorem State.fetchWord_error {f : Fault} :
    s.fetchWord = .error f ↔
      (isAligned s.pc = false ∧ f = .fetchMisaligned s.pc) ∨
      (isAligned s.pc = true ∧ (wordAddrs s.pc).all s.inText = false ∧ f = .fetchUnmapped s.pc) ∨
      (isAligned s.pc = true ∧ (wordAddrs s.pc).all s.inText = true ∧ s.wordAt s.pc = .error f) := by
  unfold State.fetchWord
  cases isAligned s.pc <;> cases (wordAddrs s.pc).all s.inText <;> simp [eq_comm]

theorem isAligned_eq_false {a : Word} : isAligned a = false ↔ a.extractLsb' 0 2 ≠ 0#2 := by
  rw [← Bool.not_eq_true, isAligned_iff]

section
variable (hf : s.fault = none) (hh : s.halted = false)
include hf hh

/-- A fault of the fetch is recorded in a running processor. -/
theorem step_of_fetchWord_error {f : Fault} (h : s.fetchWord = .error f) : step s = .next (s.raise f) := by
  unfold step
  rw [State.nextInstr_error.mpr (.inr (.inr ⟨hf, hh, f, State.fetchDecode_error.mpr (.inl h), rfl⟩))]

/-- A running processor executes the instruction of the word it fetches. -/
theorem step_of_fetchWord_ok {w : Word} (h : s.fetchWord = .ok w) (hd : decode w = .ok i) : step s = exec i s := by
  unfold step
  rw [State.nextInstr_ok.mpr ⟨hf, hh, State.fetchDecode_ok.mpr ⟨w, h, hd⟩⟩]

theorem step_misaligned (h : s.pc.extractLsb' 0 2 ≠ 0#2) : step s = .next (s.raise (.fetchMisaligned s.pc)) :=
  step_of_fetchWord_error hf hh (State.fetchWord_error.mpr (.inl ⟨isAligned_eq_false.mpr h, rfl⟩))

end

/-- Settles O11: the three faults of `State.fetchWord_error`, one after the other. -/
theorem stepChecksTheFetchInOrder : Obligations.StepChecksTheFetchInOrder := by
  intro s hf hh
  refine ⟨step_misaligned hf hh, ?unmapped, ?uninitialised⟩
  case unmapped =>
    intro ha ⟨a, hmem, htext⟩
    have hall : (wordAddrs s.pc).all s.inText = false := List.all_eq_false.mpr ⟨a, hmem, by simp [htext]⟩
    exact step_of_fetchWord_error hf hh (State.fetchWord_error.mpr (.inr (.inl ⟨isAligned_iff.mpr ha, hall, rfl⟩)))
  case uninitialised =>
    intro ha htext hnone
    have hread : s.wordAt s.pc = .error (.uninitialisedRead s.pc) := State.wordAt_error.mpr ⟨hnone, rfl⟩
    exact step_of_fetchWord_error hf hh
      (State.fetchWord_error.mpr (.inr (.inr ⟨isAligned_iff.mpr ha, List.all_eq_true.mpr htext, hread⟩)))

/-- Settles O10: the four bytes are the word fetched. -/
theorem stepRunsTheDecodedInstruction : Obligations.StepRunsTheDecodedInstruction := by
  intro s i b0 b1 b2 b3 hf hh ha htext h0 h1 h2 h3 hd
  have hword : s.wordAt s.pc = .ok (s.cfg.byteOrder.wordOf b0 b1 b2 b3) :=
    State.wordAt_ok.mpr ⟨b0, b1, b2, b3, h0, h1, h2, h3, rfl⟩
  exact step_of_fetchWord_ok hf hh (State.fetchWord_ok.mpr ⟨ha, List.all_eq_true.mpr htext, hword⟩) hd

/-! ### A loaded word (log entry 9) -/

theorem State.placeInstruction_pc (w : Word) : (s.placeInstruction w).pc = BitVec.ofNat 32 (s.pc.toNat / 4 * 4) := rfl

theorem State.placeInstruction_pc_toNat (w : Word) : (s.placeInstruction w).pc.toNat = s.pc.toNat / 4 * 4 := by
  rw [State.placeInstruction_pc, BitVec.toNat_ofNat]
  have := s.pc.isLt
  omega

/-- The range that `placeInstruction` adds to `TEXT` holds the word's four bytes. -/
theorem State.placeInstruction_inText (w : Word) {a : Word} (ha : a ∈ wordAddrs (s.placeInstruction w).pc) :
    (s.placeInstruction w).inText a = true := by
  have hpc := s.placeInstruction_pc_toNat w
  have hrange : WordRange.holds ⟨s.pc.toNat / 4, 1⟩ a.toNat = true := by
    have := s.pc.isLt
    simp only [wordAddrs, List.mem_cons, List.not_mem_nil, or_false] at ha
    simp only [WordRange.holds, Bool.and_eq_true, decide_eq_true_eq]
    obtain rfl | rfl | rfl | rfl := ha <;> simp only [BitVec.toNat_add, BitVec.toNat_ofNat, hpc] <;> omega
  simp [State.inText, State.placeInstruction, hrange]

theorem State.placeInstruction_fetchWord (w : Word) : (s.placeInstruction w).fetchWord = .ok w := by
  have ha : isAligned (s.placeInstruction w).pc = true := by
    apply isAligned_iff.mpr
    apply BitVec.eq_of_toNat_eq
    have := s.placeInstruction_pc_toNat w
    simp only [BitVec.extractLsb'_toNat, this]
    simp
  exact State.fetchWord_ok.mpr
    ⟨ha, List.all_eq_true.mpr fun _ => State.placeInstruction_inText w, State.setWord_wordAt ..⟩

/-- A word of the opcode table is decoded as the word itself (`20_memory.md` rule R34). -/
theorem decodeTableWord_some {nbits w : Nat} : decodeTableWord nbits w = some i ↔ decode (tableWord nbits w) = .ok i := by
  unfold decodeTableWord decodeBytes
  simp only [wordOf_byteOf]
  cases decode (tableWord nbits w) <;> simp

/-- Settles O12: the word placed is the word fetched. -/
theorem loadedWordRuns : Obligations.LoadedWordRuns :=
  fun _ _ _ _ h => step_of_fetchWord_ok rfl rfl (State.placeInstruction_fetchWord _) (decodeTableWord_some.mp h)

/-! ### Every instruction answers a next state (`60_exceptions.md` rules R114, R124) -/

theorem State.deliverExact_answers (r : RegNo) (v : Int) : ∃ t, s.deliverExact r v = .next t := by
  cases h : overflows v <;> simp [State.deliverExact, State.deliver, h]

theorem State.orRaise_answers (r : Except Fault State) : ∃ t, s.orRaise r = .next t := by
  cases r <;> exact ⟨_, rfl⟩

theorem State.assertEqual_answers (v1 v2 : Word) : ∃ t, s.assertEqual v1 v2 = .next t := by
  by_cases h : v1 = v2 <;> simp [State.assertEqual, h]

theorem exec_answers (i : Instr) (s : State) : ∃ t, exec i s = .next t := by
  cases i with
  | add _ _ _ | addi _ _ _ | sub _ _ _ => exact State.deliverExact_answers ..
  | and _ _ _ | andi _ _ _ | lui _ _ _ | mfhi _ | mflo _ | nor _ _ _ | or _ _ _ | ori _ _ _ => exact ⟨_, rfl⟩
  | sll _ _ _ _ | slt _ _ _ | slti _ _ _ | sra _ _ _ _ | srl _ _ _ _ | xor _ _ _ _ | xori _ _ _ => exact ⟨_, rfl⟩
  | beq _ _ _ | bne _ _ _ | j _ | jal _ | jr _ | mult _ _ | halt => exact ⟨_, rfl⟩
  | div rs rt =>
    by_cases h : divUndefined (s.reg rs) (s.reg rt) = true
    · exact ⟨_, if_pos h⟩
    · exact ⟨_, if_neg h⟩
  | lb _ _ _ | lw _ _ _ | sb _ _ _ | sw _ _ _ => exact State.orRaise_answers _
  | asrt _ _ | asrti _ _ => exact State.assertEqual_answers ..

/-- An instruction halts, goes on to `npc`, or records a fault (`10_state.md` rule R20). -/
theorem Effect.completes_or_raises (e : Effect s i t) :
    (t.fault = s.fault ∧ (if i = .halt then t = s.halt else t.pc = s.npc ∧ t.halted = s.halted)) ∨
    (i.mayRaise = true ∧ ∃ f, t = s.raise f) := by
  cases e with
  | raised f h => exact .inr ⟨h, f, rfl⟩
  | halted => exact .inl ⟨rfl, by simp⟩
  | result _ _ h | transfer _ h =>
    have hne : i ≠ .halt := by rintro rfl; cases h
    exact .inl (by simp [hne])
  | hiLo _ _ _ h | passed h =>
    have hne : i ≠ .halt := by rintro rfl; simp [Instr.mnemonic] at h
    exact .inl (by simp [hne])
  | storeByte | storeWord | link => exact .inl (by simp)

/-- Settles O24: `exec` answers, and `Effect.completes_or_raises` says what. -/
theorem everyInstructionExecutes : Obligations.EveryInstructionExecutes := by
  intro i s
  obtain ⟨t, h⟩ := exec_answers i s
  exact ⟨t, h, (exec_effect h).completes_or_raises⟩

/-! ### The stopped states (`10_state.md` rules R25, R26) -/

theorem step_of_fault {f : Fault} (h : s.fault = some f) : step s = .fault f := by
  unfold step
  rw [State.nextInstr_error.mpr (.inl ⟨f, h, rfl⟩)]

theorem step_of_halted (hf : s.fault = none) (hh : s.halted = true) : step s = .next s := by
  unfold step
  rw [State.nextInstr_error.mpr (.inr (.inl ⟨hf, hh, rfl⟩))]

/-- Without a recorded fault a step answers a next state. -/
theorem step_answers (hf : s.fault = none) : ∃ t, step s = .next t := by
  unfold step
  cases h : s.nextInstr with
  | ok i => exact exec_answers i s
  | error a =>
    obtain ⟨f, h', -⟩ | ⟨-, -, rfl⟩ | ⟨-, -, f, -, rfl⟩ := State.nextInstr_error.mp h
    · simp [hf] at h'
    · exact ⟨_, rfl⟩
    · exact ⟨_, rfl⟩

/-- Settles O17: a recorded fault is the answer, and every other state has a next state. -/
theorem stoppedStatesAnswer : Obligations.StoppedStatesAnswer := by
  intro s
  cases hf : s.fault with
  | some g => simp [step_of_fault hf]
  | none =>
    obtain ⟨t, ht⟩ := step_answers hf
    exact ⟨by simp [ht], fun _ => step_of_halted hf, by simp [ht]⟩

theorem State.endedNormally_iff : s.endedNormally = true ↔ s.halted = true ∧ s.fault = none := by
  simp [State.endedNormally]

/-- No instruction clears `halted`. -/
theorem Effect.keeps_halted (e : Effect s i t) (h : s.halted = true) : t.halted = true := by
  cases e <;> simp [h]

/-- No instruction clears `fault`. -/
theorem Effect.keeps_fault (e : Effect s i t) (h : s.fault ≠ none) : t.fault ≠ none := by
  cases e <;> simp [h]

/-- Settles O13: `launch` and `Effect` say where `halted` is set, and a halted state is its own next state. -/
theorem haltIsTheNormalEnd : Obligations.HaltIsTheNormalEnd := by
  refine ⟨⟨rfl, State.launch_halted⟩, fun _ => rfl, fun i s t h => (exec_effect h).keeps_halted, ?_,
    fun _ => State.endedNormally_iff⟩
  intro s t hh hf h
  rw [step_of_halted hf hh] at h
  exact (next_inj.mp h).symm

/-- Settles O15: `launch` and `Effect` say where `fault` is set, and a step with a next state starts without one. -/
theorem faultIsFinal : Obligations.FaultIsFinal := by
  refine ⟨⟨rfl, State.launch_fault⟩, fun s hf => ⟨?_, fun t h => hf (step_effect h).1⟩,
    fun i s t h => (exec_effect h).keeps_fault, fun _ _ => rfl⟩
  rw [← Bool.not_eq_true, State.endedNormally_iff]
  exact fun h => hf h.2

/-! ### `pc` and `npc` (`10_state.md` rule R20) -/

/-- Every instruction but HALT that completes moves `pc` to `npc`. -/
theorem Effect.pc_of_completed (e : Effect s i t) (hi : i ≠ .halt) (hf : t.fault = none) : t.pc = s.npc := by
  obtain ⟨-, h⟩ | ⟨-, f, rfl⟩ := e.completes_or_raises
  · rw [if_neg hi] at h
    exact h.1
  · simp at hf

/-- Every instruction but the control transfers and HALT that completes moves `npc` on by 4. -/
theorem Effect.npc_of_completed (e : Effect s i t) (hc : i.isControl = false) (hi : i ≠ .halt) (hf : t.fault = none) :
    t.npc = s.npc + 4 := by
  cases e with
  | raised f => simp at hf
  | transfer _ h => simp [h] at hc
  | link => cases hc
  | halted => exact absurd rfl hi
  | _ => simp

/-- An instruction that records a fault has left `pc` and `npc`. -/
theorem Effect.pc_npc_of_fault (e : Effect s i t) (hs : s.fault = none) (hf : t.fault ≠ none) :
    t.pc = s.pc ∧ t.npc = s.npc := by
  obtain ⟨h, -⟩ | ⟨-, f, rfl⟩ := e.completes_or_raises
  · exact absurd (h.trans hs) hf
  · exact ⟨rfl, rfl⟩

theorem Effect.advances (e : Effect s i t) (hc : i.isControl = false) (hi : i ≠ .halt) (hf : t.fault = none) :
    t.pc = s.npc ∧ t.npc = s.npc + 4 :=
  ⟨e.pc_of_completed hi hf, e.npc_of_completed hc hi hf⟩

/-- Settles O18: the transfers and HALT by their own equations, every other instruction by `Effect.advances`; after a JR,
the slot moves `pc` to the register's value. -/
theorem pcChangesInFourWays : Obligations.PcChangesInFourWays := by
  refine ⟨fun i s t hs h => ⟨(exec_effect h).pc_npc_of_fault hs, fun hf => ?_⟩, fun s => step_misaligned, ?jr⟩
  case jr =>
    intro rs slot s t u hjr hslot hne hu
    obtain rfl := next_inj.mp hjr
    have hpc : u.pc = s.reg rs := (exec_effect hslot).pc_of_completed hne hu
    exact ⟨hpc, fun hh hmis => hpc ▸ step_misaligned hu hh (hpc ▸ hmis)⟩
  cases i with
  | beq rs rt imm16 =>
    obtain rfl := State.branch_next.mp h
    by_cases e : s.reg rs = s.reg rt <;> simp [e, branchOffset, signedImm]
  | bne rs rt imm16 =>
    obtain rfl := State.branch_next.mp h
    by_cases e : s.reg rs = s.reg rt <;> simp [e, branchOffset, signedImm]
  | j _ | jal _ | jr _ | halt =>
    obtain rfl := next_inj.mp h
    exact ⟨by simp, rfl⟩
  | _ => exact (exec_effect h).advances rfl (by simp) hf

/-! ### The effect of each family of instructions (`10_state.md` rule R16) -/

theorem Instr.resultReg_mayRaise_of_isControl (h : i.isControl = true) : i.resultReg = none ∧ i.mayRaise = false := by
  cases i <;> simp_all [Instr.isControl, Instr.resultReg, Instr.mayRaise]

theorem Instr.resultReg_isControl_mayRaise_of_hiLo (h : i.mnemonic = .mult ∨ i.mnemonic = .div) :
    i.resultReg = none ∧ i.isControl = false ∧ i.mayRaise = false := by
  cases i <;> simp_all [Instr.mnemonic, Instr.isControl, Instr.resultReg, Instr.mayRaise]

theorem Instr.resultReg_isControl_of_assert (h : i.mnemonic = .asrt ∨ i.mnemonic = .asrti) :
    i.resultReg = none ∧ i.isControl = false := by
  cases i <;> simp_all [Instr.mnemonic, Instr.isControl, Instr.resultReg]

theorem Instr.not_assert_of_hiLo (h : i.mnemonic = .mult ∨ i.mnemonic = .div) :
    ¬ (i.mnemonic = .asrt ∨ i.mnemonic = .asrti) := by
  obtain h | h := h <;> simp [h]

/-- The register results and the loads write their destination, or raise. -/
theorem Effect.of_resultReg {d : RegNo} (e : Effect s i t) (hi : i.resultReg = some d) :
    (∃ v, t = (s.setReg d v).advance 4#32) ∨ (i.mayRaise = true ∧ ∃ f, t = s.raise f) := by
  cases e with
  | raised f h => exact .inr ⟨h, f, rfl⟩
  | result q v h =>
    obtain rfl := Option.some.inj (h.symm.trans hi)
    exact .inl ⟨v, rfl⟩
  | hiLo _ _ _ h => simp [Instr.resultReg_isControl_mayRaise_of_hiLo h] at hi
  | transfer _ h => simp [Instr.resultReg_mayRaise_of_isControl h] at hi
  | passed h => simp [Instr.resultReg_isControl_of_assert h] at hi
  | storeByte | storeWord | link | halted => cases hi

/-- MULT and DIV write `LO` and `HI`. -/
theorem Effect.of_hiLo (e : Effect s i t) (hi : i.mnemonic = .mult ∨ i.mnemonic = .div) :
    ∃ lo hi n, t = (((s.setLo lo).setHi hi).spend n).advance 4#32 := by
  obtain ⟨hr, hc, hm⟩ := Instr.resultReg_isControl_mayRaise_of_hiLo hi
  cases e with
  | raised _ h => simp [hm] at h
  | result _ _ h => simp [hr] at h
  | hiLo lo hi n => exact ⟨lo, hi, n, rfl⟩
  | transfer _ h => simp [hc] at h
  | passed h => exact absurd h (Instr.not_assert_of_hiLo hi)
  | storeByte | storeWord | link | halted => simp [Instr.mnemonic] at hi

/-- SB stores one byte, or raises. -/
theorem Effect.of_sb {rs rt : RegNo} {imm16 : Imm16} (e : Effect s (.sb rs rt imm16) t) :
    t = (s.setByte (s.ea rs imm16) (lowByte (s.reg rt))).advance 4#32 ∨ ∃ f, t = s.raise f := by
  cases e with
  | raised f => exact .inr ⟨f, rfl⟩
  | storeByte => exact .inl rfl
  | result _ _ h | transfer _ h => cases h
  | hiLo _ _ _ h | passed h => simp [Instr.mnemonic] at h

/-- SW stores four bytes, or raises. -/
theorem Effect.of_sw {rs rt : RegNo} {imm16 : Imm16} (e : Effect s (.sw rs rt imm16) t) :
    t = (s.setWord (s.ea rs imm16) (s.reg rt)).advance 4#32 ∨ ∃ f, t = s.raise f := by
  cases e with
  | raised f => exact .inr ⟨f, rfl⟩
  | storeWord => exact .inl rfl
  | result _ _ h | transfer _ h => cases h
  | hiLo _ _ _ h | passed h => simp [Instr.mnemonic] at h

/-- The control transfers move `pc` and `npc`, and JAL writes the link register. -/
theorem Effect.of_control (e : Effect s i t) (hi : i.isControl = true) :
    (∃ a, t = s.jumpTo a) ∨ (i.mnemonic = .jal ∧ ∃ v a, t = (s.setReg 31#5 v).jumpTo a) := by
  obtain ⟨hr, hm⟩ := Instr.resultReg_mayRaise_of_isControl hi
  cases e with
  | raised _ h => simp [hm] at h
  | result _ _ h => simp [hr] at h
  | hiLo _ _ _ h => simp [Instr.resultReg_isControl_mayRaise_of_hiLo h] at hi
  | transfer a => exact .inl ⟨a, rfl⟩
  | link => exact .inr ⟨rfl, _, _, rfl⟩
  | passed h => simp [Instr.resultReg_isControl_of_assert h] at hi
  | storeByte | storeWord | halted => cases hi

/-- ASRT and ASRTI pass or raise. -/
theorem Effect.of_assert (e : Effect s i t) (hi : i.mnemonic = .asrt ∨ i.mnemonic = .asrti) :
    t = s.advance 4#32 ∨ ∃ f, t = s.raise f := by
  obtain ⟨hr, hc⟩ := Instr.resultReg_isControl_of_assert hi
  cases e with
  | raised f => exact .inr ⟨f, rfl⟩
  | result _ _ h => simp [hr] at h
  | hiLo _ _ _ h => exact absurd hi (Instr.not_assert_of_hiLo h)
  | transfer _ h => simp [hc] at h
  | passed => exact .inl rfl
  | storeByte | storeWord | link | halted => simp [Instr.mnemonic] at hi

/-- HALT is the one instruction of its mnemonic. -/
theorem Instr.eq_halt (h : i.mnemonic = .halt) : i = .halt := by
  cases i <;> simp_all [Instr.mnemonic]

/-! ### Register 0 (`10_state.md` rule R15) -/

/-- Advancing never gives the state with a fault recorded: `npc` has moved. -/
theorem State.advance_ne_raise {u : State} (h : u.npc = s.npc) (f : Fault) : u.advance 4#32 ≠ s.raise f := by
  intro e
  have e' : u.npc + 4#32 = s.npc := congrArg State.npc e
  rw [h] at e'
  bv_omega

/-- An overflow does not depend on the destination. -/
theorem State.deliverExact_raises {r : RegNo} {v : Int} {f : Fault} (h : s.deliverExact r v = .next (s.raise f))
    (q : RegNo) : s.deliverExact q v = .next (s.raise f) := by
  obtain ⟨-, e⟩ | ⟨ho, e⟩ := State.deliverExact_next.mp h
  · exact absurd e.symm (State.advance_ne_raise (by simp) f)
  · exact State.deliverExact_next.mpr (.inr ⟨ho, e⟩)

/-- A fault of a load does not depend on the destination. -/
theorem State.load_raises {α : Type} {x : Except Fault α} {g : α → Word} {r : RegNo} {f : Fault}
    (h : s.orRaise (x.map fun b => (s.setReg r (g b)).advance 4#32) = .next (s.raise f)) (q : RegNo) :
    s.orRaise (x.map fun b => (s.setReg q (g b)).advance 4#32) = .next (s.raise f) := by
  cases x with
  | ok b => exact absurd (next_inj.mp h) (State.advance_ne_raise (by simp) f)
  | error e => exact h

/-- An instruction whose result goes to register 0 and that completes only advances. -/
theorem Effect.result_zero (e : Effect s i t) (hi : i.resultReg = some 0) (hf : t.fault = none) : t = s.advance 4#32 := by
  obtain ⟨v, rfl⟩ | ⟨-, f, rfl⟩ := e.of_resultReg hi
  · exact congrArg (State.advance · 4#32) (s.setReg_zero v)
  · simp at hf

/-- Settles O29: a fault is decided before the destination is written. -/
theorem registerZeroIsHardwired : Obligations.RegisterZeroIsHardwired := by
  refine ⟨State.reg_zero, State.setReg_zero, ?other, ?zero, ?faults⟩
  case other =>
    intro s r q v hr
    split
    · next e => exact e ▸ State.setReg_reg_same s hr v
    · next e => exact State.setReg_reg_other s e v
  case zero => exact fun i s t hi _ h hf => (exec_effect h).result_zero hi hf
  case faults =>
    exact fun rs rt rd imm16 s f => ⟨fun h => State.deliverExact_raises h 0, fun h => State.deliverExact_raises h 0,
      fun h => State.deliverExact_raises h 0, fun h => State.load_raises h 0, fun h => State.load_raises h 0⟩

/-! ### The frames (`10_state.md` rule R16) -/

/-- Settles O53: one register write, or a fault. -/
theorem registerResultFrame : Obligations.RegisterResultFrame := by
  intro i d s t hi h
  obtain ⟨v, rfl⟩ | ⟨hm, f, rfl⟩ := (exec_effect h).of_resultReg hi
  · simp +contextual [State.setReg_reg_other]
  · exact ⟨by simp, rfl, rfl, by simp, rfl, rfl, rfl, .inr ⟨hm, f, rfl⟩⟩

/-- Settles O54: `LO`, `HI`, the draws and the program counters are written. -/
theorem multiplyDivideFrame : Obligations.MultiplyDivideFrame := by
  intro i s t hi h
  obtain ⟨lo, hi, n, rfl⟩ := (exec_effect h).of_hiLo hi
  simp

/-- Settles O55: one byte or word is written, or a fault. -/
theorem storeFrame : Obligations.StoreFrame := by
  refine fun rs rt imm16 s t => ⟨fun h => ?byte, fun h => ?word⟩
  case byte =>
    obtain rfl | ⟨f, rfl⟩ := (exec_effect h).of_sb
    · simp +contextual [State.setByte_byte]
    · exact ⟨by simp, by simp, rfl, rfl, rfl, rfl, rfl, .inr ⟨f, rfl⟩⟩
  case word =>
    obtain rfl | ⟨f, rfl⟩ := (exec_effect h).of_sw
    · simp +contextual [State.setWord_byte_other]
    · exact ⟨by simp, by simp, rfl, rfl, rfl, rfl, rfl, .inr ⟨f, rfl⟩⟩

/-- Settles O56: the program counters, and the link register for JAL. -/
theorem controlTransferFrame : Obligations.ControlTransferFrame := by
  intro i s t hi h
  obtain ⟨a, rfl⟩ | ⟨hj, v, a, rfl⟩ := (exec_effect h).of_control hi
  · simp
  · simp +contextual [hj, State.setReg_reg_other]

/-- Settles O57: ASRT and ASRTI pass or raise, HALT sets `halted`. -/
theorem testingFrame : Obligations.TestingFrame := by
  intro i s t hi h
  rw [← or_assoc] at hi
  obtain hi | hi := hi
  · have hne : i.mnemonic ≠ .halt := by obtain hi | hi := hi <;> simp [hi]
    obtain rfl | ⟨f, rfl⟩ := (exec_effect h).of_assert hi
    · simp [hne]
    · exact ⟨by simp, rfl, rfl, by simp, rfl, rfl, fun e => absurd e hne, fun _ => ⟨rfl, .inr ⟨f, rfl⟩⟩⟩
  · obtain rfl := Instr.eq_halt hi
    obtain rfl := next_inj.mp h
    simp [hi]

end Sys2Proof.Machine
end

section
/-!
PROOFS. Memory: the bytes of a word, `TEXT`, the loads and the stores, and the placing of a program (`20_memory.md`).
-/

namespace Sys2Proof.Machine

variable {i : Instr} {s t : State}

/-! ### The bytes of a word (`20_memory.md` rule R34) -/

/-- The addresses of a word, by the number of the byte. -/
theorem mem_wordAddrs {a x : Word} : x ∈ wordAddrs a ↔ ∃ j : Fin 4, x = a + BitVec.ofNat 32 j.val := by
  simp [wordAddrs, Fin.exists_fin_succ]

theorem addr_mem_wordAddrs (a : Word) (j : Fin 4) : a + BitVec.ofNat 32 j.val ∈ wordAddrs a :=
  mem_wordAddrs.mpr ⟨j, rfl⟩

/-- Different bytes of a word lie at different addresses. -/
theorem addr_inj {a : Word} {j k : Fin 4} : a + BitVec.ofNat 32 j.val = a + BitVec.ofNat 32 k.val ↔ j = k := by
  refine ⟨fun h => ?_, congrArg fun n : Fin 4 => a + BitVec.ofNat 32 n.val⟩
  have hn := congrArg BitVec.toNat (add_left_cancel h)
  simp only [BitVec.toNat_ofNat] at hn
  omega

/-- Byte `j` of the word made of four bytes is the `j`-th of them, in either order. -/
theorem byteOf_wordOf (o : ByteOrder) (b : Fin 4 → Byte) (j : Fin 4) :
    o.byteOf (o.wordOf (b 0) (b 1) (b 2) (b 3)) j.val = b j := by
  cases o <;> fin_cases j <;>
  · simp only [ByteOrder.byteOf, ByteOrder.wordOf, BitVec.extractLsb'_append_eq_ite]
    simp

/-- The word at `a` is `w` exactly when each of the four bytes is that byte of `w`. -/
theorem State.wordAt_ok_iff_bytes {a w : Word} :
    s.wordAt a = .ok w ↔ ∀ j : Fin 4, s.byte (a + BitVec.ofNat 32 j.val) = some (s.cfg.byteOrder.byteOf w j.val) := by
  rw [State.wordAt_ok]
  constructor
  · rintro ⟨b0, b1, b2, b3, h0, h1, h2, h3, rfl⟩ j
    have hbytes : ∀ j : Fin 4, s.byte (a + BitVec.ofNat 32 j.val) = some (![b0, b1, b2, b3] j) := by
      simp [Fin.forall_fin_succ, h0, h1, h2, h3]
    exact (hbytes j).trans (congrArg some (byteOf_wordOf s.cfg.byteOrder ![b0, b1, b2, b3] j).symm)
  · intro h
    exact ⟨_, _, _, _, by simpa using h 0, h 1, h 2, h 3, wordOf_byteOf ..⟩

/-- Byte `k` of a word just stored (rule R39). -/
theorem State.setWord_byte_at (a w : Word) (k : Fin 4) :
    (s.setWord a w).byte (a + BitVec.ofNat 32 k.val) = some (s.cfg.byteOrder.byteOf w k.val) :=
  State.wordAt_ok_iff_bytes.mp (State.setWord_wordAt s a w) k

theorem State.setWord_byte_first (a w : Word) : (s.setWord a w).byte a = some (s.cfg.byteOrder.byteOf w 0) := by
  simpa using State.setWord_byte_at (s := s) a w 0

/-- The word `w` with its byte `k` in memory replaced. -/
def ByteOrder.replaceByte (o : ByteOrder) (w : Word) (k : Fin 4) (b : Byte) : Word :=
  let bytes : Fin 4 → Byte := Function.update (fun j => o.byteOf w j.val) k b
  o.wordOf (bytes 0) (bytes 1) (bytes 2) (bytes 3)

theorem byteOf_replaceByte (o : ByteOrder) (w : Word) (k : Fin 4) (b : Byte) (j : Fin 4) :
    o.byteOf (ByteOrder.replaceByte o w k b) j.val = if j = k then b else o.byteOf w j.val :=
  (byteOf_wordOf o (Function.update (fun j : Fin 4 => o.byteOf w j.val) k b) j).trans (Function.update_apply ..)

/-- A byte stored into a word replaces that byte of the word (rule R35). -/
theorem State.setByte_wordAt {a w : Word} (h : s.wordAt a = .ok w) (k : Fin 4) (b : Byte) :
    (s.setByte (a + BitVec.ofNat 32 k.val) b).wordAt a = .ok (ByteOrder.replaceByte s.cfg.byteOrder w k b) := by
  rw [State.wordAt_ok_iff_bytes] at h ⊢
  intro j
  rw [State.setByte_byte, State.setByte_cfg, byteOf_replaceByte, h j, apply_ite some]
  simp only [addr_inj]

/-! ### What a memory instruction answers (`44_load_store.md` rules R101 to R104) -/

theorem State.orRaise_map_ok {α : Type} {x : Except Fault α} {g : α → State} {a : α} (h : x = .ok a) :
    s.orRaise (x.map g) = .next (g a) := by
  subst h; rfl

theorem State.orRaise_map_error {α : Type} {x : Except Fault α} {g : α → State} {f : Fault} (h : x = .error f) :
    s.orRaise (x.map g) = .next (s.raise f) := by
  subst h; rfl

/-- A result delivered by a load, as the statements write it. -/
theorem State.setReg_advance (r : RegNo) (v : Word) :
    (s.setReg r v).advance 4#32 = { s.setReg r v with pc := s.npc, npc := s.npc + 4 } := by
  simp [State.advance]

section
variable {rs rt : RegNo} {imm16 : Imm16} {a : Word} (hea : s.ea rs imm16 = a)
include hea

theorem exec_lb_ok {b : Byte} (hm : s.isMapped a = true) (hb : s.byte a = some b) :
    exec (.lb rs rt imm16) s = .next { s.setReg rt (b.signExtend 32) with pc := s.npc, npc := s.npc + 4 } := by
  subst hea
  exact (State.orRaise_map_ok (State.memRead1_ok.mpr ⟨hm, hb⟩)).trans (congrArg _ (State.setReg_advance ..))

theorem exec_lw_ok {w : Word} (ha : isAligned a = true) (hm : ∀ x ∈ wordAddrs a, s.isMapped x = true)
    (hw : s.wordAt a = .ok w) :
    exec (.lw rs rt imm16) s = .next { s.setReg rt w with pc := s.npc, npc := s.npc + 4 } := by
  subst hea
  exact (State.orRaise_map_ok (State.memRead4_ok.mpr ⟨ha, List.all_eq_true.mpr hm, hw⟩)).trans
    (congrArg _ (State.setReg_advance ..))

end

theorem all_eq_false_of_exists {p : Word → Bool} {as : List Word} (h : ∃ a ∈ as, p a = false) : as.all p = false := by
  simpa using h

theorem any_eq_false_of_forall {p : Word → Bool} {as : List Word} (h : ∀ a ∈ as, p a = false) : as.any p = false := by
  simpa using h

/-! ### `TEXT` and the parameters (`20_memory.md` rules R35, R43, R47) -/

theorem State.isMapped_of_inText {a : Word} (h : s.inText a = true) : s.isMapped a = true := by
  simp [State.isMapped, h]

/-- No instruction changes the parameters. -/
theorem Effect.keeps_cfg (e : Effect s i t) : t.cfg = s.cfg := by
  cases e <;> simp

/-- No instruction changes a byte of `TEXT`: the two stores write outside it. -/
theorem Effect.keeps_text (e : Effect s i t) {a : Word} (h : s.inText a = true) : t.byte a = s.byte a := by
  cases e with
  | storeByte rs _ imm16 _ ht =>
    have hne : a ≠ s.ea rs imm16 := by rintro rfl; simp [h] at ht
    simp [State.setByte_byte, hne]
  | storeWord rs _ imm16 _ _ ht =>
    have hne : a ∉ wordAddrs (s.ea rs imm16) := fun hm => List.any_eq_false.mp ht a hm h
    simp [State.setWord_byte_other, hne]
  | _ => simp

/-- No step changes the parameters or a byte of `TEXT`. -/
theorem step_keeps_cfg_text (h : step s = .next t) :
    t.cfg = s.cfg ∧ ∀ a, s.inText a = true → t.byte a = s.byte a := by
  obtain ⟨-, ⟨-, rfl⟩ | ⟨-, f, -, rfl⟩ | ⟨-, i, -, -, e⟩⟩ := step_effect h
  · exact ⟨rfl, fun _ _ => rfl⟩
  · exact ⟨rfl, fun _ _ => rfl⟩
  · exact ⟨e.keeps_cfg, fun _ => e.keeps_text⟩

/-- Settles O23: `step_keeps_cfg_text` for the bytes, hence for the words, and the last check of each store. -/
theorem textAndParametersStayFixed : Obligations.TextAndParametersStayFixed := by
  refine ⟨fun s t h => ?fixed, fun rs rt imm16 s ht => ?byte, fun rs rt imm16 s ha hm ht => ?word⟩
  case fixed =>
    obtain ⟨hcfg, htext⟩ := step_keeps_cfg_text h
    refine ⟨hcfg, htext, fun a w hw hin => State.wordAt_ok_iff_bytes.mpr fun j => ?_⟩
    rw [htext _ (hin _ (addr_mem_wordAddrs a j)), hcfg]
    exact State.wordAt_ok_iff_bytes.mp hw j
  case byte =>
    exact State.orRaise_map_error (State.memWrite1_error.mpr (.inr ⟨State.isMapped_of_inText ht, ht, rfl⟩))
  case word =>
    exact State.orRaise_map_error (State.memWrite4_error.mpr
      (.inr (.inr ⟨ha, List.all_eq_true.mpr hm, List.any_eq_true.mpr ht, rfl⟩)))

/-! ### The loads (`20_memory.md` rules R36, R37) -/

/-- Settles O42: the two faults of `MemRead(ea, 1)`, and its byte. -/
theorem loadByteReadsOneByte : Obligations.LoadByteReadsOneByte := by
  rintro rs rt imm16 s _ rfl
  refine ⟨fun hm => ?unmapped, fun hm hb => ?uninitialised, fun b hm hb => ?loaded⟩
  case unmapped => exact State.orRaise_map_error (State.memRead1_error.mpr (.inl ⟨hm, rfl⟩))
  case uninitialised => exact State.orRaise_map_error (State.memRead1_error.mpr (.inr ⟨hm, hb, rfl⟩))
  case loaded => exact exec_lb_ok rfl hm hb

/-- Settles O43: the three faults of `MemRead(ea, 4)`, and its word. -/
theorem loadWordReadsFourBytes : Obligations.LoadWordReadsFourBytes := by
  rintro rs rt imm16 s _ rfl
  refine ⟨fun ha => ?misaligned, fun ha hm => ?unmapped, fun ha hm hb => ?uninitialised,
    fun b0 b1 b2 b3 ha hm h0 h1 h2 h3 => ?loaded⟩
  case misaligned =>
    exact State.orRaise_map_error (State.memRead4_error.mpr (.inl ⟨isAligned_eq_false.mpr ha, rfl⟩))
  case unmapped =>
    exact State.orRaise_map_error (State.memRead4_error.mpr
      (.inr (.inl ⟨isAligned_iff.mpr ha, all_eq_false_of_exists hm, rfl⟩)))
  case uninitialised =>
    exact State.orRaise_map_error (State.memRead4_error.mpr
      (.inr (.inr ⟨isAligned_iff.mpr ha, List.all_eq_true.mpr hm, State.wordAt_error.mpr ⟨hb, rfl⟩⟩)))
  case loaded =>
    exact exec_lw_ok rfl (isAligned_iff.mpr ha) hm (State.wordAt_ok.mpr ⟨b0, b1, b2, b3, h0, h1, h2, h3, rfl⟩)

/-! ### The stores (`20_memory.md` rules R38, R39) -/

/-- Settles O44: the two faults of `MemWrite(ea, 1, v)`, and its byte. -/
theorem storeByteWritesOneByte : Obligations.StoreByteWritesOneByte := by
  rintro rs rt imm16 s _ rfl
  refine ⟨fun hm => ?unmapped, fun hm ht => ?text, fun hm ht => ?stored⟩
  case unmapped => exact State.orRaise_map_error (State.memWrite1_error.mpr (.inl ⟨hm, rfl⟩))
  case text => exact State.orRaise_map_error (State.memWrite1_error.mpr (.inr ⟨hm, ht, rfl⟩))
  case stored =>
    exact ⟨_, State.orRaise_map_ok (State.memWrite1_ok.mpr ⟨hm, ht, rfl⟩), rfl, rfl, rfl, fun a => s.setByte_byte _ a _⟩

/-- Settles O45: the three faults of `MemWrite(ea, 4, v)`, and its four bytes. -/
theorem storeWordWritesFourBytes : Obligations.StoreWordWritesFourBytes := by
  rintro rs rt imm16 s _ _ rfl rfl
  refine ⟨fun ha => ?misaligned, fun ha hm => ?unmapped, fun ha hm ht => ?text, fun ha hm ht => ?stored⟩
  case misaligned =>
    exact State.orRaise_map_error (State.memWrite4_error.mpr (.inl ⟨isAligned_eq_false.mpr ha, rfl⟩))
  case unmapped =>
    exact State.orRaise_map_error (State.memWrite4_error.mpr
      (.inr (.inl ⟨isAligned_iff.mpr ha, all_eq_false_of_exists hm, rfl⟩)))
  case text =>
    exact State.orRaise_map_error (State.memWrite4_error.mpr
      (.inr (.inr ⟨isAligned_iff.mpr ha, List.all_eq_true.mpr hm, List.any_eq_true.mpr ht, rfl⟩)))
  case stored =>
    have hfirst := State.setWord_byte_first (s := s) (s.ea rs imm16) (s.reg rt)
    have hbyte := State.setWord_byte_at (s := s) (s.ea rs imm16) (s.reg rt)
    refine ⟨_, State.orRaise_map_ok (State.memWrite4_ok.mpr
      ⟨isAligned_iff.mpr ha, List.all_eq_true.mpr hm, any_eq_false_of_forall ht, rfl⟩), rfl, rfl, rfl,
      fun ho => ?_, fun ho => ?_, fun a h => s.setWord_byte_other _ h⟩
    all_goals
      rw [ho] at hfirst hbyte
      exact ⟨hfirst, hbyte 1, hbyte 2, hbyte 3⟩

/-! ### Accesses of different widths (`20_memory.md` rule R35) -/

/-- Settles O47: a byte of a word just stored by `State.setWord_byte_at`, a word with a byte just stored by
`State.setByte_wordAt`. -/
theorem mixedWidthFollowsByteOrder : Obligations.MixedWidthFollowsByteOrder := by
  refine ⟨fun i s t h => congrArg Config.byteOrder (exec_effect h).keeps_cfg, ?byteOfWord, ?wordWithByte⟩
  case byteOfWord =>
    intro rs rt rs' rt' imm16 imm16' s t k _ ht h hea
    obtain ⟨-, hm, rfl⟩ := exec_sw_completed h ht
    have hmap := List.all_eq_true.mp hm _ (addr_mem_wordAddrs _ k)
    have hbyte := State.setWord_byte_at (s := s) (s.ea rs imm16) (s.reg rt) k
    refine ⟨s.cfg.byteOrder.byteOf (s.reg rt) k.val, exec_lb_ok hea hmap hbyte,
      fun ho => by rw [ho]; rfl, fun ho => by rw [ho]; rfl, fun hv hk => ?byteZero, fun hv hk => ?byteThree⟩
    all_goals
      subst hk
      rw [hv]
      cases s.cfg.byteOrder <;> rfl
  case wordWithByte =>
    intro rs rt rs' rt' imm16 imm16' s t k a w _ ht h hea hk ha hm hw
    obtain ⟨-, rfl⟩ := exec_sb_completed h ht
    have hstored := State.setByte_wordAt hw k (lowByte (s.reg rt))
    rw [← hk] at hstored
    have hbyte := byteOf_replaceByte s.cfg.byteOrder w k (lowByte (s.reg rt))
    refine ⟨_, exec_lw_ok hea.symm ha hm hstored, fun j => ⟨fun ho => ?_, fun ho => ?_⟩⟩
    all_goals
      rw [ho] at hbyte ⊢
      exact hbyte j

/-! ### The placing of a program (`70_reset_and_hazards.md` rule R131) -/

/-- The words of a program that starts at word number `k`, each at its address. -/
def programWords (k : Nat) (ws : List Word) : List (Word × Word) :=
  (ws.zipIdx k).map fun (w, n) => (BitVec.ofNat 32 (4 * n), w)

theorem Launch.ofProgram_words (o : ByteOrder) (ws : List Word) : (Launch.ofProgram o ws).words = programWords 0 ws := rfl

theorem programWords_append (k : Nat) (xs ys : List Word) :
    programWords k (xs ++ ys) = programWords k xs ++ programWords (k + xs.length) ys := by
  simp [programWords, List.zipIdx_append]

theorem programWords_cons (k : Nat) (w : Word) (ws : List Word) :
    programWords k (w :: ws) = (BitVec.ofNat 32 (4 * k), w) :: programWords (k + 1) ws := rfl

theorem mem_programWords {k : Nat} {ws : List Word} {aw : Word × Word} (h : aw ∈ programWords k ws) :
    ∃ n, k ≤ n ∧ n < k + ws.length ∧ aw.1 = BitVec.ofNat 32 (4 * n) := by
  obtain ⟨⟨w, n⟩, hn, rfl⟩ := List.mem_map.mp h
  obtain ⟨hk, hlt, -⟩ := List.mem_zipIdx hn
  exact ⟨n, hk, hlt, rfl⟩

/-- The addresses of word number `n`. -/
theorem mem_wordAddrs_ofNat {n : Nat} (hn : n < 2 ^ 30) {x : Word} :
    x ∈ wordAddrs (BitVec.ofNat 32 (4 * n)) ↔ x.toNat / 4 = n := by
  rw [mem_wordAddrs]
  constructor
  · rintro ⟨j, rfl⟩
    simp only [BitVec.toNat_add, BitVec.toNat_ofNat]
    omega
  · intro h
    refine ⟨⟨x.toNat % 4, Nat.mod_lt _ (by decide)⟩, BitVec.eq_of_toNat_eq ?_⟩
    have := x.isLt
    simp only [BitVec.toNat_add, BitVec.toNat_ofNat]
    omega

section
variable (o : ByteOrder) {ws : List Word}

/-- `TEXT` of a program's launch is the bytes of the program. -/
theorem launch_ofProgram_inText {a : Word} :
    (State.launch (Launch.ofProgram o ws)).inText a = true ↔ a.toNat < 4 * ws.length := by
  rw [State.launch_keep]
  simp [State.inText, Launch.bare, Launch.ofProgram, WordRange.holds]

variable (hlen : ws.length ≤ 1024)
include hlen

/-- Word `n` of a program lies at address `4 * n`: no later word covers it. -/
theorem launch_ofProgram_wordAt {n : Nat} {w : Word} (h : ws[n]? = some w) :
    (State.launch (Launch.ofProgram o ws)).wordAt (BitVec.ofNat 32 (4 * n)) = .ok w := by
  obtain ⟨hn, rfl⟩ := List.getElem?_eq_some_iff.mp h
  have hsplit : programWords 0 ws =
      programWords 0 (ws.take n) ++ (BitVec.ofNat 32 (4 * n), ws[n]) :: programWords (n + 1) (ws.drop (n + 1)) := by
    conv_lhs => rw [← List.take_append_drop n ws, List.drop_eq_getElem_cons hn]
    rw [programWords_append, programWords_cons, List.length_take_of_le hn.le, Nat.zero_add]
  rw [State.launch_eq, Launch.ofProgram_words, hsplit]
  apply State.setWords_wordAt_placed
  intro aw haw x hx hx'
  obtain ⟨m, hm, hmlt, e⟩ := mem_programWords haw
  rw [List.length_drop] at hmlt
  rw [mem_wordAddrs_ofNat (by omega)] at hx
  rw [e, mem_wordAddrs_ofNat (by omega)] at hx'
  omega

/-- Every byte of a program has a value. -/
theorem launch_ofProgram_byte_isSome {a : Word} (h : a.toNat < 4 * ws.length) :
    ((State.launch (Launch.ofProgram o ws)).byte a).isSome = true := by
  have hn : a.toNat / 4 < ws.length := by omega
  obtain ⟨j, hj⟩ := mem_wordAddrs.mp ((mem_wordAddrs_ofNat (n := a.toNat / 4) (by omega)).mpr rfl)
  have hw := launch_ofProgram_wordAt o hlen (List.getElem?_eq_getElem hn)
  rw [hj, State.wordAt_ok_iff_bytes.mp hw j]
  rfl

/-- The launch of a program of at least one word is proper (`20_memory.md` rule R43). -/
theorem launch_ofProgram_proper (hne : ws ≠ []) : (Launch.ofProgram o ws).Proper := by
  have hpos := List.length_pos_iff.mpr hne
  refine ⟨rfl, fun a ha => ?_, fun a ha => ?_, (fun _ h => nomatch h), fun aw haw a ha => State.isMapped_of_inText ?_⟩
  · have h0 : a.toNat / 4 = 0 := (mem_wordAddrs_ofNat (by decide)).mp ha
    exact (launch_ofProgram_inText o).mpr (by omega)
  · exact launch_ofProgram_byte_isSome o hlen ((launch_ofProgram_inText o).mp ha)
  · obtain ⟨n, -, hn, e⟩ := mem_programWords haw
    rw [e, mem_wordAddrs_ofNat (by omega)] at ha
    exact (launch_ofProgram_inText o).mpr (by omega)

end

/-- Settles O28: each word at its address, `TEXT` their bytes, and the launch proper. -/
theorem programIsPlaced : Obligations.ProgramIsPlaced :=
  fun o _ hlen => ⟨fun _ _ => launch_ofProgram_wordAt o hlen, fun _ => launch_ofProgram_inText o,
    launch_ofProgram_proper o hlen⟩

end Sys2Proof.Machine
end

section
/-!
PROOFS. Encoding: the decoder and the encoder as inverses, the opcode table, the assembler, and labels (`30_encoding.md`).
-/

namespace Sys2Proof.Machine

variable {w : Word} {i : Instr} {ops : List (List Char)} {cs : List Char}

/-! ### The decoder and the encoder are inverse (`30_encoding.md` rules R50, R51, R57) -/

theorem withFixedBits_ok {ok : Bool} {i j : Instr} : withFixedBits ok i = .ok j ↔ ok = true ∧ i = j := by
  cases ok <;> simp [withFixedBits]

theorem decode_packR (rs rt rd : RegNo) (shamt : Shamt) (funct : BitVec 6) :
    decode (packR rs rt rd shamt funct) = decodeFunct (packR rs rt rd shamt funct) := by
  simp [decode]

/-- Settles O1: the fields of a packed word are the fields packed, and the decoder's cases are told apart by the opcode and
`funct` that `encode` writes. -/
theorem decodeOfEncode : Obligations.DecodeOfEncode := by
  intro i
  cases i with
  | sll _ _ _ _ | sra _ _ _ _ | srl _ _ _ _ | xor _ _ _ _ => simp [encode, decode_packR, decodeFunct]
  | add _ _ _ | and _ _ _ | nor _ _ _ | or _ _ _ | slt _ _ _ | sub _ _ _ | div _ _ | mult _ _ | jr _ | mfhi _ | mflo _ =>
    simp [encode, decode_packR, decodeFunct, withFixedBits]
  | addi _ _ _ | andi _ _ _ | beq _ _ _ | bne _ _ _ | lb _ _ _ | lui _ _ _ | lw _ _ _ | ori _ _ _ | sb _ _ _ | slti _ _ _
  | sw _ _ _ | xori _ _ _ | j _ | jal _ => simp [encode, decode]
  | asrt _ _ | asrti _ _ | halt => simp [encode, decode, withFixedBits]

theorem packI_of_opcode {opcode : BitVec 6} (h : opcodeOf w = opcode) :
    packI opcode (rsOf w) (rtOf w) (imm16Of w) = w := h ▸ packI_fields w

theorem packJ_of_opcode {opcode : BitVec 6} (h : opcodeOf w = opcode) : packJ opcode (target26Of w) = w :=
  h ▸ packJ_fields w

theorem packR_of_funct {funct : BitVec 6} (ho : opcodeOf w = 0x00#6) (h : functOf w = funct) :
    packR (rsOf w) (rtOf w) (rdOf w) (shamtOf w) funct = w := h ▸ packR_fields ho

/-- The R-layout group: fields that `withFixedBits` tests are the zeros that `encode` writes. -/
theorem encode_of_decodeFunct (ho : opcodeOf w = 0x00#6) (h : decodeFunct w = .ok i) : encode i = w := by
  unfold decodeFunct at h
  split at h
  case h_16 => cases h
  case h_1 hf | h_2 hf | h_3 hf | h_13 hf =>
    obtain rfl := Except.ok.inj h
    exact packR_of_funct ho hf
  all_goals
    obtain ⟨hz, rfl⟩ := withFixedBits_ok.mp h
    simp only [Bool.and_eq_true, beq_iff_eq] at hz
    simpa only [encode, hz] using packR_of_funct ho ‹_›

/-- Settles O2: in each case of the decoder a word is the word of its own fields, and each field tested for 0 is one that
`encode` writes as 0. -/
theorem encodeOfDecode : Obligations.EncodeOfDecode := by
  intro w i h
  unfold decode at h
  split at h
  case h_1 ho => exact encode_of_decodeFunct ho h
  case h_2 ho | h_3 ho =>
    obtain rfl := Except.ok.inj h
    exact packJ_of_opcode ho
  case h_12 ho | h_13 ho =>
    obtain ⟨hz, rfl⟩ := withFixedBits_ok.mp h
    simpa only [encode, beq_iff_eq.mp hz] using packI_of_opcode ho
  case h_14 ho =>
    obtain ⟨hz, rfl⟩ := withFixedBits_ok.mp h
    simpa only [encode, beq_iff_eq.mp hz] using packJ_of_opcode ho
  case h_19 => cases h
  all_goals
    obtain rfl := Except.ok.inj h
    exact packI_of_opcode ‹_›

/-! ### The opcode table (`30_encoding.md` rules R52, R57) -/

/-- A field that the mask covers has the value of the pattern. -/
theorem extractLsb'_of_mask {m p : Word} {k n : Nat} (h : w &&& m = p) (hm : m.extractLsb' k n = BitVec.allOnes n) :
    w.extractLsb' k n = p.extractLsb' k n := by
  rw [← h, BitVec.extractLsb'_and, hm, BitVec.and_allOnes]

/-- A word with the fixed bits of a row decodes to an instruction of the row's mnemonic: each field that the decoder tests
is one that the row's mask covers. -/
theorem exists_decode_of_row {m : Mnemonic} {r : OpcodeRow} (hr : m.row = some r) (h : w &&& r.mask = r.pattern) :
    ∃ i, decode w = .ok i ∧ i.mnemonic = m := by
  have fixed {k n : Nat} := extractLsb'_of_mask (k := k) (n := n) h
  cases m with
  | addi | andi | beq | bne | j | jal | lb | lui | lw | ori | sb | slti | sw | xori =>
    obtain rfl := Option.some.inj hr
    simp [decode, opcodeOf, fixed, Instr.mnemonic]
  | asrt | asrti | halt =>
    obtain rfl := Option.some.inj hr
    simp [decode, opcodeOf, fixed, withFixedBits, rsOf, imm16Of, target26Of, Instr.mnemonic]
  | sll | sra | srl | xor =>
    obtain rfl := Option.some.inj hr
    simp [decode, decodeFunct, opcodeOf, functOf, fixed, Instr.mnemonic]
  | add | and | nor | or | slt | sub | div | mult | jr | mfhi | mflo =>
    obtain rfl := Option.some.inj hr
    simp [decode, decodeFunct, opcodeOf, functOf, fixed, withFixedBits, rsOf, rtOf, rdOf, shamtOf, Instr.mnemonic]

/-- The lemmas of `Laws.OwnRow`, one per constructor, as one statement. -/
theorem encode_ownRow (i : Instr) : Laws.OwnRow.Statement i :=
  match i with
  | .add _ _ _ => Laws.OwnRow.add _ _ _
  | .addi _ _ _ => Laws.OwnRow.addi _ _ _
  | .and _ _ _ => Laws.OwnRow.and _ _ _
  | .andi _ _ _ => Laws.OwnRow.andi _ _ _
  | .beq _ _ _ => Laws.OwnRow.beq _ _ _
  | .bne _ _ _ => Laws.OwnRow.bne _ _ _
  | .div _ _ => Laws.OwnRow.div _ _
  | .j _ => Laws.OwnRow.j _
  | .jal _ => Laws.OwnRow.jal _
  | .jr _ => Laws.OwnRow.jr _
  | .lb _ _ _ => Laws.OwnRow.lb _ _ _
  | .lui _ _ _ => Laws.OwnRow.lui _ _ _
  | .lw _ _ _ => Laws.OwnRow.lw _ _ _
  | .mfhi _ => Laws.OwnRow.mfhi _
  | .mflo _ => Laws.OwnRow.mflo _
  | .mult _ _ => Laws.OwnRow.mult _ _
  | .nor _ _ _ => Laws.OwnRow.nor _ _ _
  | .or _ _ _ => Laws.OwnRow.or _ _ _
  | .ori _ _ _ => Laws.OwnRow.ori _ _ _
  | .sb _ _ _ => Laws.OwnRow.sb _ _ _
  | .sll _ _ _ _ => Laws.OwnRow.sll _ _ _ _
  | .slt _ _ _ => Laws.OwnRow.slt _ _ _
  | .slti _ _ _ => Laws.OwnRow.slti _ _ _
  | .sra _ _ _ _ => Laws.OwnRow.sra _ _ _ _
  | .srl _ _ _ _ => Laws.OwnRow.srl _ _ _ _
  | .sub _ _ _ => Laws.OwnRow.sub _ _ _
  | .sw _ _ _ => Laws.OwnRow.sw _ _ _
  | .xor _ _ _ _ => Laws.OwnRow.xor _ _ _ _
  | .xori _ _ _ => Laws.OwnRow.xori _ _ _
  | .asrt _ _ => Laws.OwnRow.asrt _ _
  | .asrti _ _ => Laws.OwnRow.asrti _ _
  | .halt => Laws.OwnRow.halt

/-- The table has one row for each mnemonic it lists. -/
theorem row_of_mem {r : OpcodeRow} (h : r ∈ opcodeRows) : r.mnemonic.row = some r := by
  revert r
  decide

theorem exists_mem_of_row (m : Mnemonic) : ∃ r ∈ opcodeRows, r.mnemonic = m := by
  cases m <;> decide

/-- A word has the fixed bits of a row exactly when it decodes to the row's mnemonic (rule R52). -/
theorem row_matches_iff {r : OpcodeRow} (hr : r ∈ opcodeRows) :
    w &&& r.mask = r.pattern ↔ ∃ i, decode w = .ok i ∧ i.mnemonic = r.mnemonic := by
  refine ⟨exists_decode_of_row (row_of_mem hr), ?_⟩
  rintro ⟨i, hd, hm⟩
  have hw := encode_ownRow i r (hm ▸ row_of_mem hr)
  rw [encodeOfDecode w i hd] at hw
  exact beq_iff_eq.mp hw

/-- Settles O4: both rows are the row of the mnemonic the word decodes to. -/
theorem opcodeRowsDoNotOverlap : Obligations.OpcodeRowsDoNotOverlap := by
  intro w r r' hr hr' hw hw'
  obtain ⟨i, hd, hm⟩ := (row_matches_iff hr).mp (beq_iff_eq.mp hw)
  obtain ⟨i', hd', hm'⟩ := (row_matches_iff hr').mp (beq_iff_eq.mp hw')
  obtain rfl := Except.ok.inj (hd.symm.trans hd')
  exact Option.some.inj ((row_of_mem hr).symm.trans ((hm.symm.trans hm') ▸ row_of_mem hr'))

/-- The decoder rejects exactly the words no row matches (rule R62). -/
theorem decode_error_iff : (∃ why, decode w = .error why) ↔ ∀ r ∈ opcodeRows, w &&& r.mask ≠ r.pattern := by
  constructor
  · rintro ⟨why, h⟩ r hr hw
    obtain ⟨i, hd, -⟩ := (row_matches_iff hr).mp hw
    rw [hd] at h
    cases h
  · intro h
    cases hd : decode w with
    | error why => exact ⟨why, rfl⟩
    | ok i =>
      obtain ⟨r, hr, hm⟩ := exists_mem_of_row i.mnemonic
      exact absurd ((row_matches_iff hr).mpr ⟨i, hd, hm.symm⟩) (h r hr)

/-- A running processor records a fault of the fetch or of the decoding. -/
theorem step_of_fetchDecode_error {s : State} {f : Fault} (hf : s.fault = none) (hh : s.halted = false)
    (h : s.fetchDecode = .error f) : step s = .next (s.raise f) := by
  unfold step
  rw [State.nextInstr_error.mpr (.inr (.inr ⟨hf, hh, f, h, rfl⟩))]

/-- Settles O5: the rejected words by `decode_error_iff`, and their fault is one of `fetchDecode`. -/
theorem reservedWordRaises : Obligations.ReservedWordRaises := by
  refine ⟨fun w => decode_error_iff, fun s w hf hh hw hrow => ?_⟩
  obtain ⟨why, hd⟩ := decode_error_iff.mpr hrow
  exact step_of_fetchDecode_error hf hh (State.fetchDecode_error.mpr (.inr ⟨w, why, hw, hd, rfl⟩))

/-- Settles O6: the decoder run on each word. -/
theorem decodesWordsOfTheSpec : Obligations.DecodesWordsOfTheSpec := by
  unfold Obligations.DecodesWordsOfTheSpec
  decide

/-! ### What the assembler writes: a constructor applied to what the operands read as (`30_encoding.md` rules R64, R68) -/

theorem exists_of_map_ok {ε α β : Type} {x : Except ε α} {f : α → β} {b : β} (h : x.map f = .ok b) : ∃ a, b = f a := by
  cases x with
  | error _ => cases h
  | ok a => exact ⟨a, (Except.ok.inj h).symm⟩

theorem exists_of_bind_ok {ε α β : Type} {x : Except ε α} {f : α → Except ε β} {b : β} (h : x >>= f = .ok b) :
    ∃ a, f a = .ok b := by
  cases x with
  | error _ => cases h
  | ok a => exact ⟨a, h⟩

theorem exists_of_bind_bind_ok {ε α β γ : Type} {x : Except ε α} {y : Except ε β} {k : α → β → γ} {c : γ}
    (h : (do return k (← x) (← y)) = Except.ok c) : ∃ a b, c = k a b := by
  obtain ⟨a, h⟩ := exists_of_bind_ok h
  obtain ⟨b, h⟩ := exists_of_bind_ok h
  exact ⟨a, b, (Except.ok.inj h).symm⟩

theorem exists_of_bind_bind_bind_ok {ε α β γ δ : Type} {x : Except ε α} {y : Except ε β} {z : Except ε γ}
    {k : α → β → γ → δ} {d : δ} (h : (do return k (← x) (← y) (← z)) = Except.ok d) : ∃ a b c, d = k a b c := by
  obtain ⟨a, h⟩ := exists_of_bind_ok h
  exact ⟨a, exists_of_bind_bind_ok h⟩

theorem asmReg_ok {k : RegNo → Instr} (h : asmReg ops k = .ok i) : ∃ r, i = k r := by
  unfold asmReg at h
  split at h
  · exact exists_of_map_ok h
  · cases h

theorem asmTarget_ok {k : Target26 → Instr} (h : asmTarget ops k = .ok i) : ∃ g, i = k g := by
  unfold asmTarget at h
  split at h
  · exact exists_of_map_ok h
  · cases h

theorem asmRegReg_ok {k : RegNo → RegNo → Instr} (h : asmRegReg ops k = .ok i) : ∃ r q, i = k r q := by
  unfold asmRegReg at h
  split at h
  · exact exists_of_bind_bind_ok h
  · cases h

theorem asmRegImm_ok {k : RegNo → Imm16 → Instr} (h : asmRegImm ops k = .ok i) : ∃ r n, i = k r n := by
  unfold asmRegImm at h
  split at h
  · exact exists_of_bind_bind_ok h
  · cases h

theorem asmRegRegReg_ok {k : RegNo → RegNo → RegNo → Instr} (h : asmRegRegReg ops k = .ok i) :
    ∃ r q p, i = k r q p := by
  unfold asmRegRegReg at h
  split at h
  · exact exists_of_bind_bind_bind_ok h
  · cases h

theorem asmRegRegImm_ok {k : RegNo → RegNo → Imm16 → Instr} (h : asmRegRegImm ops k = .ok i) :
    ∃ r q n, i = k r q n := by
  unfold asmRegRegImm at h
  split at h
  · exact exists_of_bind_bind_bind_ok h
  · cases h

theorem asmRegRegShamt_ok {k : RegNo → RegNo → Shamt → Instr} (h : asmRegRegShamt ops k = .ok i) :
    ∃ r q n, i = k r q n := by
  unfold asmRegRegShamt at h
  split at h
  · exact exists_of_bind_bind_bind_ok h
  · cases h

theorem asmRegMemory_ok {k : RegNo → Imm16 → RegNo → Instr} (h : asmRegMemory ops k = .ok i) :
    ∃ r n q, i = k r n q := by
  unfold asmRegMemory at h
  split at h
  · obtain ⟨r, h⟩ := exists_of_bind_ok h
    obtain ⟨⟨n, q⟩, h⟩ := exists_of_bind_ok h
    exact ⟨r, n, q, (Except.ok.inj h).symm⟩
  · cases h

/-- No Syntax row fills an ignored bit with anything but 0. -/
theorem asmOperands_wellFormed {m : Mnemonic} (h : asmOperands m ops = .ok i) : i.wellFormed = true := by
  cases m with
  | jr | mfhi | mflo =>
    obtain ⟨_, rfl⟩ := asmReg_ok h
    rfl
  | j | jal =>
    obtain ⟨_, rfl⟩ := asmTarget_ok h
    rfl
  | div | mult | asrt =>
    obtain ⟨_, _, rfl⟩ := asmRegReg_ok h
    rfl
  | lui | asrti =>
    obtain ⟨_, _, rfl⟩ := asmRegImm_ok h
    rfl
  | add | and | nor | or | slt | sub | xor =>
    obtain ⟨_, _, _, rfl⟩ := asmRegRegReg_ok h
    rfl
  | addi | andi | beq | bne | ori | slti | xori =>
    obtain ⟨_, _, _, rfl⟩ := asmRegRegImm_ok h
    rfl
  | sll | sra | srl =>
    obtain ⟨_, _, _, rfl⟩ := asmRegRegShamt_ok h
    rfl
  | lb | lw | sb | sw =>
    simp only [asmOperands] at h
    obtain ⟨_, _, _, rfl⟩ := asmRegMemory_ok h
    rfl
  | halt =>
    simp only [asmOperands] at h
    split at h
    · obtain rfl := Except.ok.inj h
      rfl
    · cases h

/-- The assembler makes only instructions whose ignored bits are 0. -/
theorem parseLine_wellFormed {line : List Char} (h : parseLine line = .ok i) : i.wellFormed = true := by
  unfold parseLine at h
  split at h
  · cases h
  · split at h
    all_goals exact asmOperands_wellFormed h

/-- Settles O3: the rows by `row_matches_iff`; no meaning of the five instructions reads its ignored bits. -/
theorem decodeTestsExactlyTheFixedBits : Obligations.DecodeTestsExactlyTheFixedBits :=
  ⟨fun _ hr _ => row_matches_iff hr, fun _ _ _ _ _ _ _ _ => ⟨rfl, rfl, rfl, rfl, rfl⟩,
    fun _ _ => parseLine_wellFormed⟩

/-- Settles O8: the assembler run on each line. -/
theorem assemblesLinesOfTheSpec : Obligations.AssemblesLinesOfTheSpec := by
  unfold Obligations.AssemblesLinesOfTheSpec
  decide

/-! ### Numbers in decimal (`30_encoding.md` rule R66) -/

/-- The text of decimal digits alone. -/
def AllDecimal (cs : List Char) : Prop := ∀ c ∈ cs, (decimalDigit c).isSome = true

theorem decimalDigit_ofNat {d : Nat} (h : d < 10) : decimalDigit (Char.ofNat (48 + d)) = some d := by
  interval_cases d <;> rfl

/-- A character that is no decimal digit does not stand in a number. -/
theorem AllDecimal.not_mem (h : AllDecimal cs) {c : Char} (hc : decimalDigit c = none) : c ∉ cs :=
  fun hm => by simpa [hc] using h c hm

theorem decimalBefore_allDecimal {fuel n : Nat} (h : AllDecimal cs) : AllDecimal (decimalBefore fuel n cs) := by
  induction fuel generalizing n cs with
  | zero => exact h
  | succ fuel ih =>
    have hd : AllDecimal (Char.ofNat (48 + n % 10) :: cs) :=
      List.forall_mem_cons.mpr ⟨by rw [decimalDigit_ofNat (Nat.mod_lt n (by decide))]; rfl, h⟩
    unfold decimalBefore
    split
    · exact hd
    · exact ih hd

/-- The digits of `n` read before `cs` are the number `n` to which the digits of `cs` are added. -/
theorem readDigits_decimalBefore {fuel n : Nat} (h : n < 10 ^ fuel) :
    readDigits 10 decimalDigit 0 (decimalBefore fuel n cs) = readDigits 10 decimalDigit n cs := by
  induction fuel generalizing n cs with
  | zero =>
    obtain rfl := Nat.lt_one_iff.mp h
    rfl
  | succ fuel ih =>
    have hd := decimalDigit_ofNat (Nat.mod_lt n (by decide : 0 < 10))
    unfold decimalBefore
    split
    · next h0 =>
      rw [readDigits, hd]
      simp [show n % 10 = n by omega]
    · rw [ih (by omega)]
      simp [readDigits, hd, Nat.div_add_mod]

theorem decimalBefore_ne_nil {fuel n : Nat} (h : cs ≠ []) : decimalBefore fuel n cs ≠ [] := by
  induction fuel generalizing n cs with
  | zero => exact h
  | succ fuel ih =>
    unfold decimalBefore
    split
    · simp
    · exact ih (by simp)

theorem decimalText_ne_nil (n : Nat) : decimalText n ≠ [] := by
  unfold decimalText decimalBefore
  split
  · simp
  · exact decimalBefore_ne_nil (by simp)

theorem decimalText_allDecimal (n : Nat) : AllDecimal (decimalText n) := decimalBefore_allDecimal (by simp [AllDecimal])

theorem readDecimal_decimalText {n : Nat} (h : n < 10 ^ 8) : readDecimal (decimalText n) = some n := by
  unfold readDecimal
  rw [if_neg (by simpa using decimalText_ne_nil n)]
  exact readDigits_decimalBefore h

theorem readNumber_of_allDecimal (h : AllDecimal cs) : readNumber cs = (readDecimal cs).map fun n => (n : Int) := by
  unfold readNumber
  split
  · exact absurd List.mem_cons_self (h.not_mem rfl)
  · exact absurd (.tail _ List.mem_cons_self) (h.not_mem (c := 'x') rfl)
  · rfl

theorem readNumber_decimalText {n : Nat} (h : n < 10 ^ 8) : readNumber (decimalText n) = some (n : Int) := by
  rw [readNumber_of_allDecimal (decimalText_allDecimal n), readDecimal_decimalText h]
  rfl

/-- A field of at most 8 decimal digits is read back, when its range takes every value of the field. -/
theorem readField_fieldText {n : Nat} {lo hi : Int} (v : BitVec n) (hn : 2 ^ n ≤ 10 ^ 8) (hlo : lo ≤ 0)
    (hhi : 2 ^ n - 1 ≤ hi) : readField n lo hi (fieldText v) = .ok v := by
  have hv := v.isLt
  have hv' : (v.toNat : Int) < 2 ^ n := by exact_mod_cast hv
  unfold readField fieldText
  rw [readNumber_decimalText (by omega)]
  simp only
  rw [if_pos ⟨by omega, by omega⟩]
  simp

@[simp] theorem readImm_fieldText (v : Imm16) : readImm (fieldText v) = .ok v :=
  readField_fieldText v (by decide) (by decide) (by decide)

@[simp] theorem readShamt_fieldText (v : Shamt) : readShamt (fieldText v) = .ok v :=
  readField_fieldText v (by decide) (by decide) (by decide)

@[simp] theorem readTarget_fieldText (v : Target26) : readTarget (fieldText v) = .ok v :=
  readField_fieldText v (by decide) (by decide) (by decide)

/-! ### Registers and memory operands (`30_encoding.md` rules R64, R65) -/

@[simp] theorem readReg_regText (r : RegNo) : readReg (regText r) = .ok r := by
  have hr := r.isLt
  simp only [readReg, regText]
  rw [readDecimal_decimalText (by omega)]
  simp only
  rw [if_pos (by omega), BitVec.ofNat_toNat, BitVec.setWidth_eq]

theorem splitAtParen_append {l r : List Char} (h : '(' ∉ l) : splitAtParen (l ++ '(' :: r) = some (l, r) := by
  induction l with
  | nil => rfl
  | cons c l ih =>
    rw [List.mem_cons, not_or] at h
    simp [splitAtParen, Ne.symm h.1, ih h.2]

@[simp] theorem readMemory_memoryText (imm16 : Imm16) (rs : RegNo) :
    readMemory (memoryText imm16 rs) = .ok (imm16, rs) := by
  have hp : splitAtParen (memoryText imm16 rs) = some (fieldText imm16, regText rs ++ [')']) := by
    rw [memoryText, List.append_assoc, List.cons_append]
    exact splitAtParen_append ((decimalText_allDecimal _).not_mem rfl)
  unfold readMemory
  rw [hp]
  simp [bind, Except.bind, pure, Except.pure]

/-! ### Lines (`30_encoding.md` rule R64) -/

theorem splitAtSpace_of_not_mem (h : ' ' ∉ cs) : splitAtSpace cs = (cs, none) := by
  induction cs with
  | nil => rfl
  | cons c cs ih =>
    rw [List.mem_cons, not_or] at h
    simp [splitAtSpace, Ne.symm h.1, ih h.2]

theorem splitAtSpace_append {rest : List Char} (h : ' ' ∉ cs) : splitAtSpace (cs ++ ' ' :: rest) = (cs, some rest) := by
  induction cs with
  | nil => rfl
  | cons c cs ih =>
    rw [List.mem_cons, not_or] at h
    simp [splitAtSpace, Ne.symm h.1, ih h.2]

theorem splitAtCommas_of_not_mem (h : ',' ∉ cs) : splitAtCommas cs = [cs] := by
  induction cs with
  | nil => rfl
  | cons c cs ih =>
    rw [List.mem_cons, not_or] at h
    rw [splitAtCommas, ih h.2]
    exact fun _ hc => absurd hc.symm h.1

theorem splitAtCommas_append {rest : List Char} (h : ',' ∉ cs) :
    splitAtCommas (cs ++ ',' :: ' ' :: rest) = cs :: splitAtCommas rest := by
  induction cs with
  | nil => simp [splitAtCommas]
  | cons c cs ih =>
    rw [List.mem_cons, not_or] at h
    rw [List.cons_append, splitAtCommas, ih h.2]
    exact fun _ hc => absurd hc.symm h.1

theorem splitAtCommas_intercalate {o : List Char} (h : ∀ x ∈ o :: ops, ',' ∉ x) :
    splitAtCommas ([',', ' '].intercalate (o :: ops)) = o :: ops := by
  induction ops generalizing o with
  | nil => simpa using splitAtCommas_of_not_mem (h o (.head _))
  | cons p ops ih =>
    rw [List.forall_mem_cons] at h
    rw [List.intercalate_cons_cons, List.append_assoc]
    exact (splitAtCommas_append h.1).trans (congrArg _ (ih h.2))

theorem space_not_mem_text (m : Mnemonic) : ' ' ∉ Mnemonic.text m := by
  cases m <;> decide

theorem readMnemonic_text (m : Mnemonic) : readMnemonic (Mnemonic.text m) = some m := by
  cases m <;> decide

/-- A line is parsed to its mnemonic and its operands. -/
theorem parseLine_lineText {m : Mnemonic} (h : ∀ x ∈ ops, ',' ∉ x) : parseLine (lineText m ops) = asmOperands m ops := by
  cases ops with
  | nil =>
    have hs : splitAtSpace (lineText m []) = (Mnemonic.text m, none) := splitAtSpace_of_not_mem (space_not_mem_text m)
    simp [parseLine, hs, readMnemonic_text]
  | cons o ops =>
    have hs : splitAtSpace (lineText m (o :: ops)) = (Mnemonic.text m, some ([',', ' '].intercalate (o :: ops))) :=
      splitAtSpace_append (space_not_mem_text m)
    simp [parseLine, hs, readMnemonic_text, splitAtCommas_intercalate h]

@[simp] theorem comma_not_mem_fieldText {n : Nat} (v : BitVec n) : ',' ∉ fieldText v :=
  (decimalText_allDecimal _).not_mem rfl

@[simp] theorem comma_not_mem_regText (r : RegNo) : ',' ∉ regText r := by
  simpa [regText] using (decimalText_allDecimal _).not_mem rfl

@[simp] theorem comma_not_mem_memoryText (imm16 : Imm16) (rs : RegNo) : ',' ∉ memoryText imm16 rs := by
  simp [memoryText]

/-! ### The operands of each Syntax row -/

theorem asmReg_text (k : RegNo → Instr) (r : RegNo) : asmReg [regText r] k = .ok (k r) := by
  simp [asmReg, Except.map]

theorem asmTarget_text (k : Target26 → Instr) (g : Target26) : asmTarget [fieldText g] k = .ok (k g) := by
  simp [asmTarget, Except.map]

theorem asmRegReg_text (k : RegNo → RegNo → Instr) (r q : RegNo) :
    asmRegReg [regText r, regText q] k = .ok (k r q) := by
  simp [asmRegReg, bind, Except.bind, pure, Except.pure]

theorem asmRegImm_text (k : RegNo → Imm16 → Instr) (r : RegNo) (n : Imm16) :
    asmRegImm [regText r, fieldText n] k = .ok (k r n) := by
  simp [asmRegImm, bind, Except.bind, pure, Except.pure]

theorem asmRegRegReg_text (k : RegNo → RegNo → RegNo → Instr) (r q p : RegNo) :
    asmRegRegReg [regText r, regText q, regText p] k = .ok (k r q p) := by
  simp [asmRegRegReg, bind, Except.bind, pure, Except.pure]

theorem asmRegRegImm_text (k : RegNo → RegNo → Imm16 → Instr) (r q : RegNo) (n : Imm16) :
    asmRegRegImm [regText r, regText q, fieldText n] k = .ok (k r q n) := by
  simp [asmRegRegImm, bind, Except.bind, pure, Except.pure]

theorem asmRegRegShamt_text (k : RegNo → RegNo → Shamt → Instr) (r q : RegNo) (n : Shamt) :
    asmRegRegShamt [regText r, regText q, fieldText n] k = .ok (k r q n) := by
  simp [asmRegRegShamt, bind, Except.bind, pure, Except.pure]

theorem asmRegMemory_text (k : RegNo → Imm16 → RegNo → Instr) (r q : RegNo) (n : Imm16) :
    asmRegMemory [regText r, memoryText n q] k = .ok (k r n q) := by
  simp [asmRegMemory, bind, Except.bind, pure, Except.pure]

/-- Settles O7: the line is cut where `lineText` joined it, and each operand reads back as the field it was made from. -/
theorem assembleOfSyntaxText : Obligations.AssembleOfSyntaxText := by
  intro i hi
  unfold instrText
  rw [parseLine_lineText (by cases i <;> simp)]
  cases i with
  | add _ _ _ | and _ _ _ | nor _ _ _ | or _ _ _ | slt _ _ _ | sub _ _ _ => exact asmRegRegReg_text ..
  | addi _ _ _ | andi _ _ _ | beq _ _ _ | bne _ _ _ | ori _ _ _ | slti _ _ _ | xori _ _ _ => exact asmRegRegImm_text ..
  | div _ _ | mult _ _ | asrt _ _ => exact asmRegReg_text ..
  | j _ | jal _ => exact asmTarget_text ..
  | jr _ | mfhi _ | mflo _ => exact asmReg_text ..
  | lb _ _ _ | lw _ _ _ | sb _ _ _ | sw _ _ _ =>
    simp only [asmOperands, Instr.mnemonic, asmRegMemory_text]
  | asrti _ _ => exact asmRegImm_text ..
  | halt => rfl
  | lui ignored _ _ =>
    obtain rfl : ignored = 0#5 := beq_iff_eq.mp hi
    exact asmRegImm_text ..
  | sll ignored _ _ _ | sra ignored _ _ _ | srl ignored _ _ _ =>
    obtain rfl : ignored = 0#5 := beq_iff_eq.mp hi
    exact asmRegRegShamt_text ..
  | xor _ _ _ ignored =>
    obtain rfl : ignored = 0#5 := beq_iff_eq.mp hi
    exact asmRegRegReg_text ..

/-! ### Labels (`30_encoding.md` rule R67) -/

section
variable {a l : Word}

/-- The offset of a label, as the formula of the rule (log entry 15). -/
theorem labelOffset_iff {offset : Imm16} :
    labelOffset a l = some offset ↔ (l - (a + 4)).toInt = 4 * offset.toInt := by
  have hlo := offset.le_toInt
  have hhi := offset.toInt_lt
  unfold labelOffset
  extract_lets d
  change _ ↔ d = _
  clear_value d
  split
  · next h =>
    rw [Option.some.injEq, ← BitVec.toInt_inj, BitVec.toInt_ofInt_eq_self (by decide) (by omega) (by omega)]
    omega
  · next h => exact iff_of_false nofun (by omega)

/-- Addresses have the same high four bits when they lie in the same region of 2^28 bytes. -/
theorem extractLsb'_region_inj {x y : Word} :
    (x.extractLsb' 28 4 : BitVec 4) = y.extractLsb' 28 4 ↔ x.toNat / 2 ^ 28 = y.toNat / 2 ^ 28 := by
  have := x.isLt
  have := y.isLt
  rw [← BitVec.toNat_inj]
  simp only [BitVec.extractLsb'_toNat, Nat.shiftRight_eq_div_pow]
  omega

/-- The target of a label, as the formula of the rule. -/
theorem labelTarget_iff {target : Target26} :
    labelTarget a l = some target ↔
      l.toNat / 2 ^ 28 = (a + 4).toNat / 2 ^ 28 ∧ target.toNat = l.toNat / 4 % 2 ^ 26 := by
  have ht : (l >>> 2).setWidth 26 = target ↔ target.toNat = l.toNat / 4 % 2 ^ 26 := by
    rw [← BitVec.toNat_inj, eq_comm]
    simp [Nat.shiftRight_eq_div_pow]
  unfold labelTarget
  rw [Option.ite_none_right_eq_some, Option.some.injEq, extractLsb'_region_inj, ht]
  rfl

theorem branchOffset_eq_ofInt (offset : Imm16) : branchOffset offset = BitVec.ofInt 32 (4 * offset.toInt) := by
  have h : BitVec.ofInt 32 offset.toInt = signedImm offset := by rw [← signedImm_toInt, BitVec.ofInt_toInt]
  rw [BitVec.ofInt_mul, h]
  unfold branchOffset
  rw [BitVec.shiftLeft_eq_mul_twoPow, BitVec.mul_comm]
  rfl

theorem add_branchOffset_of_label {offset : Imm16} (h : labelOffset a l = some offset) :
    a + 4 + branchOffset offset = l := by
  rw [branchOffset_eq_ofInt, ← labelOffset_iff.mp h, BitVec.ofInt_toInt]
  exact add_sub_cancel _ _

theorem toNat_mod_four_of_isAligned (h : isAligned l = true) : l.toNat % 4 = 0 := by
  simpa using congrArg BitVec.toNat (isAligned_iff.mp h)

theorem regionTarget_of_label {target : Target26} (h : labelTarget a l = some target) (hl : isAligned l = true) :
    regionTarget (a + 4) target = l := by
  obtain ⟨hr, ht⟩ := labelTarget_iff.mp h
  have h4 := toNat_mod_four_of_isAligned hl
  apply BitVec.eq_of_toNat_eq
  rw [regionTarget_toNat, ← hr, ht]
  omega

/-- A branch reaches every aligned label within -2^17 .. 2^17 - 4 bytes of its delay slot. -/
theorem labelOffset_isSome (ha : isAligned a = true) (hl : isAligned l = true)
    (hlo : -131072 ≤ (l - (a + 4)).toInt) (hhi : (l - (a + 4)).toInt ≤ 131068) : (labelOffset a l).isSome = true := by
  have ha4 := toNat_mod_four_of_isAligned ha
  have hl4 := toNat_mod_four_of_isAligned hl
  have hd : (l - (a + 4)).toInt % 4 = 0 := by
    have h4 : (4 : Word).toNat = 4 := rfl
    rw [BitVec.toInt_eq_toNat_cond, BitVec.toNat_sub, BitVec.toNat_add, h4]
    split <;> omega
  have hq : (l - (a + 4)).toInt = 4 * (BitVec.ofInt 16 ((l - (a + 4)).toInt / 4)).toInt := by
    rw [BitVec.toInt_ofInt_eq_self (by decide) (by omega) (by omega)]
    omega
  exact Option.isSome_iff_exists.mpr ⟨_, labelOffset_iff.mpr hq⟩

end

/-- Settles O9: the two formulas, and the branch and the jump that add them to the delay slot's address. -/
theorem labelsAreReached : Obligations.LabelsAreReached := by
  refine ⟨fun _ _ _ => labelOffset_iff, fun _ _ _ => labelTarget_iff, fun a l offset s rs rt h hn => ?branch,
    fun a l target s h hl hn => ?jump, fun _ _ => labelOffset_isSome⟩
  case branch =>
    have hto : s.advance (branchOffset offset) = { s with pc := s.npc, npc := l } := by
      rw [State.advance, hn, add_branchOffset_of_label h]
    rw [← hto]
    exact ⟨fun he => State.branch_next.mpr (by simp [he]), fun he => State.branch_next.mpr (by simp [he])⟩
  case jump =>
    exact next_inj.mpr (by rw [hn, regionTarget_of_label h hl, ← hn]; rfl)

end Sys2Proof.Machine
end

section
/-!
PROOFS. ADD, ADDI, SUB, SLT and SLTI (`40_arithmetic.md`).
-/

namespace Sys2Proof.Machine

variable {s : State}

/-! ### Exact results and words (`40_arithmetic.md` rules R69, R70) -/

/-- The sum modulo 2^32 of the operands as signed numbers. -/
theorem ofInt_toInt_add_toInt (a b : Word) : BitVec.ofInt 32 (a.toInt + b.toInt) = a + b := by
  rw [BitVec.ofInt_add, BitVec.ofInt_toInt, BitVec.ofInt_toInt]

/-- The difference modulo 2^32 of the operands as signed numbers. -/
theorem ofInt_toInt_sub_toInt (a b : Word) : BitVec.ofInt 32 (a.toInt - b.toInt) = a - b := by
  rw [Int.sub_eq_add_neg, BitVec.ofInt_add, BitVec.ofInt_neg, BitVec.ofInt_toInt, BitVec.ofInt_toInt,
    BitVec.sub_eq_add_neg]

/-- The model's overflow in the form of the library's `BitVec.saddOverflow` and `BitVec.ssubOverflow`. -/
theorem overflows_eq_or (v : Int) : overflows v = (decide (v ≥ 2 ^ 31) || decide (v < -2 ^ 31)) := by
  simp only [overflows, ge_iff_le, Int.sub_one_lt_iff, Bool.or_comm]

theorem overflows_add (a b : Word) : overflows (a.toInt + b.toInt) = a.saddOverflow b := overflows_eq_or _

theorem overflows_sub (a b : Word) : overflows (a.toInt - b.toInt) = a.ssubOverflow b := overflows_eq_or _

/-- The bit test of rule R70 for a sum. -/
theorem overflows_add_iff_msb (a b : Word) :
    overflows (a.toInt + b.toInt) = true ↔ a.msb = b.msb ∧ (a + b).msb ≠ a.msb := by
  rw [overflows_add, BitVec.saddOverflow_eq]
  simp

/-- The bit test of rule R70 for a difference. -/
theorem overflows_sub_iff_msb (a b : Word) :
    overflows (a.toInt - b.toInt) = true ↔ a.msb ≠ b.msb ∧ (a - b).msb ≠ a.msb := by
  rw [overflows_sub, BitVec.ssubOverflow_eq]
  cases a.msb <;> simp

/-! ### What the two ends answer, as the statements write it -/

theorem State.deliver_eq (r : RegNo) (v : Word) :
    s.deliver r v = .next { s.setReg r v with pc := s.npc, npc := s.npc + 4 } :=
  congrArg _ (State.setReg_advance r v)

/-- An exact result that fits is delivered as the word `w` it is modulo 2^32. -/
theorem State.deliverExact_of_fits {r : RegNo} {v : Int} {w : Word} (hw : BitVec.ofInt 32 v = w) (hlo : -2 ^ 31 ≤ v)
    (hhi : v ≤ 2 ^ 31 - 1) :
    s.deliverExact r v = .next { s.setReg r w with pc := s.npc, npc := s.npc + 4 } :=
  State.deliverExact_next.mpr (.inl ⟨overflows_eq_false.mpr ⟨hlo, hhi⟩, by rw [hw, State.setReg_advance]⟩)

theorem State.deliverExact_of_overflow {r : RegNo} {v : Int} (h : v < -2 ^ 31 ∨ 2 ^ 31 - 1 < v) :
    s.deliverExact r v = .next { s with fault := some (.integerOverflow s.pc) } :=
  State.deliverExact_next.mpr (.inr ⟨overflows_eq_true.mpr h, rfl⟩)

/-! ### The instructions (`40_arithmetic.md` rules R71 to R75) -/

/-- Settles O30: an exact result that fits is delivered, and it is the word sum or difference. -/
theorem addAndSubResults : Obligations.AddAndSubResults := by
  refine fun rs rt rd imm16 s => ⟨?add, ?addi, ?sub⟩
  case add => exact State.deliverExact_of_fits (ofInt_toInt_add_toInt ..)
  case addi =>
    rw [← signedImm_toInt]
    exact State.deliverExact_of_fits (ofInt_toInt_add_toInt ..)
  case sub => exact State.deliverExact_of_fits (ofInt_toInt_sub_toInt ..)

/-- Settles O31: `overflows` is both the range and the bit tests, and a recorded fault is the next step's answer. -/
theorem signedOverflowRaises : Obligations.SignedOverflowRaises := by
  refine ⟨fun a b => ⟨?sum, ?difference⟩, fun rs rt rd imm16 s => ⟨?add, ?addi, ?sub, ?stops⟩⟩
  case sum => exact overflows_eq_true.symm.trans (overflows_add_iff_msb a b)
  case difference => exact overflows_eq_true.symm.trans (overflows_sub_iff_msb a b)
  case add => exact State.deliverExact_of_overflow
  case addi =>
    rw [← signedImm_toInt]
    exact State.deliverExact_of_overflow
  case sub => exact State.deliverExact_of_overflow
  case stops => exact fun u h => nomatch (step_of_fault rfl).symm.trans h

/-- Settles O32: `setIfLess` is the comparison of the statement, with SLTI's immediate as a signed number. -/
theorem compareResults : Obligations.CompareResults := by
  refine fun rs rt rd imm16 s => ⟨State.deliver_eq .., ?slti⟩
  rw [← signedImm_toInt]
  exact State.deliver_eq ..

end Sys2Proof.Machine
end

section
/-!
PROOFS. AND, OR, XOR, NOR and their immediate forms, and LUI (`41_logical.md`).
-/

namespace Sys2Proof.Machine

variable {i : Instr}

/-! ### The immediates, bit by bit and as numbers (`30_encoding.md` rule R53) -/

/-- The bits of the zero extension: those of the immediate below bit 16, and 0 above. -/
theorem zeroImm_getLsbD (imm16 : Imm16) (k : Nat) :
    (zeroImm imm16).getLsbD k = (decide (k < 16) && imm16.getLsbD k) := by
  rw [zeroImm, BitVec.zeroExtend, BitVec.getLsbD_setWidth]
  by_cases hk : k < 16
  · simp [hk, Nat.lt_trans hk]
  · simp [hk, BitVec.getLsbD_of_ge imm16 k (Nat.le_of_not_lt hk)]

/-- Sixteen zero bits below the immediate multiply it by 2^16. -/
theorem upperImm_eq_ofNat (imm16 : Imm16) : upperImm imm16 = BitVec.ofNat 32 (imm16.toNat * 65536) := by
  apply BitVec.eq_of_toNat_eq
  have hlt := imm16.isLt
  rw [upperImm, BitVec.toNat_append, BitVec.toNat_zero, Nat.or_zero, Nat.shiftLeft_eq, BitVec.toNat_ofNat,
    Nat.mod_eq_of_lt (by omega)]

/-! ### LUI among the instructions (`41_logical.md` rule R84) -/

theorem Instr.eq_lui (h : i.mnemonic = .lui) : ∃ g rt imm16, i = .lui g rt imm16 := by
  cases i with
  | lui g rt imm16 => exact ⟨g, rt, imm16, rfl⟩
  | _ => cases h

/-- LUI's operands are the fields of the word it decodes from. -/
theorem decode_lui_fields {w : Word} {g : Ignored5} {rt : RegNo} {imm16 : Imm16} (h : decode w = .ok (.lui g rt imm16)) :
    rtOf w = rt ∧ imm16Of w = imm16 := by
  rw [← encodeOfDecode w _ h]
  exact ⟨rtOf_packI .., imm16Of_packI ..⟩

/-- The words of LUI's row decode to LUI, with the operands of their fields (rule R52). -/
theorem lui_row_matches_iff {w : Word} :
    w &&& 0xFC000000#32 = 0x3C000000#32 ↔ ∃ g, decode w = .ok (.lui g (rtOf w) (imm16Of w)) := by
  have hrow : (⟨.lui, 0x3C000000, 0xFC000000⟩ : OpcodeRow) ∈ opcodeRows := by decide
  refine (row_matches_iff hrow).trans ⟨?_, fun ⟨g, hd⟩ => ⟨_, hd, rfl⟩⟩
  rintro ⟨i, hd, hm⟩
  obtain ⟨g, rt, imm16, rfl⟩ := Instr.eq_lui hm
  obtain ⟨rfl, rfl⟩ := decode_lui_fields hd
  exact ⟨g, hd⟩

/-! ### The instructions -/

/-- Settles O33: each instruction delivers the library's bitwise operation, whose bits the library gives. -/
theorem logicalResultsBitByBit : Obligations.LogicalResultsBitByBit := by
  refine fun rs rt rd g imm16 s =>
    ⟨⟨_, State.deliver_eq .., fun k _ => BitVec.getLsbD_and⟩, ⟨_, State.deliver_eq .., fun k _ => BitVec.getLsbD_or⟩,
      ⟨_, State.deliver_eq .., fun k _ => BitVec.getLsbD_xor⟩, ⟨_, State.deliver_eq .., fun k hk => ?nor⟩,
      ⟨_, State.deliver_eq .., fun k _ => ?andi⟩, ⟨_, State.deliver_eq .., fun k _ => ?ori⟩,
      ⟨_, State.deliver_eq .., fun k _ => ?xori⟩⟩
  case nor => rw [BitVec.getLsbD_not, BitVec.getLsbD_or, decide_eq_true hk, Bool.true_and]
  case andi => rw [BitVec.getLsbD_and, zeroImm_getLsbD]
  case ori => rw [BitVec.getLsbD_or, zeroImm_getLsbD]
  case xori => rw [BitVec.getLsbD_xor, zeroImm_getLsbD]

/-- Settles O34: the text by running the assembler, which leaves ignored bits 0; the words by LUI's row; the effect by
`upperImm_eq_ofNat`. -/
theorem loadUpperImmediateRule : Obligations.LoadUpperImmediateRule := by
  refine ⟨by decide, fun line i hp hm => ?zeroBits, fun w => lui_row_matches_iff, fun g rt imm16 s => ?effect⟩
  case zeroBits =>
    obtain ⟨g, rt, imm16, rfl⟩ := Instr.eq_lui hm
    obtain rfl : g = 0 := beq_iff_eq.mp (parseLine_wellFormed hp)
    exact ⟨rt, imm16, rfl⟩
  case effect =>
    rw [← upperImm_eq_ofNat]
    exact State.deliver_eq ..

end Sys2Proof.Machine
end

section
/-!
PROOFS. BEQ, BNE, J, JAL and JR, and the delay slot (`42_control_transfer.md`).
-/

namespace Sys2Proof.Machine

variable {s t : State}

/-! ### The targets as numbers (`30_encoding.md` rules R53, R54) -/

/-- The branch target as the signed sum, modulo 2^32. -/
theorem add_branchOffset_eq_ofInt (a : Word) (imm16 : Imm16) :
    a + branchOffset imm16 = BitVec.ofInt 32 (a.toNat + 4 * imm16.toInt) := by
  rw [BitVec.ofInt_add, BitVec.ofInt_natCast, BitVec.ofNat_toNat, BitVec.setWidth_eq, branchOffset_eq_ofInt]

theorem regionTarget_eq_ofNat (a : Word) (g : Target26) :
    regionTarget a g = BitVec.ofNat 32 (a.toNat / 2 ^ 28 * 2 ^ 28 + 4 * g.toNat) := by
  rw [← regionTarget_toNat, BitVec.ofNat_toNat, BitVec.setWidth_eq]

/-- The end of BEQ and BNE, as the statements write it (rule R85). -/
theorem State.branch_eq (taken : Bool) (imm16 : Imm16) :
    s.branch taken imm16 =
      .next { s with
        pc := s.npc
        npc := if taken then BitVec.ofInt 32 (s.npc.toNat + 4 * imm16.toInt) else s.npc + 4 } := by
  rw [State.branch_next, ← add_branchOffset_eq_ofInt]
  cases taken <;> rfl

/-! ### Multiples of 4 (rule R92) -/

theorem branchOffset_toNat_mod_four (imm16 : Imm16) : (branchOffset imm16).toNat % 4 = 0 := by
  rw [branchOffset, BitVec.toNat_shiftLeft, Nat.shiftLeft_eq]
  omega

theorem add_toNat_mod_four {a b : Word} (ha : a.toNat % 4 = 0) (hb : b.toNat % 4 = 0) : (a + b).toNat % 4 = 0 := by
  rw [BitVec.toNat_add]
  omega

theorem regionTarget_toNat_mod_four (a : Word) (g : Target26) : (regionTarget a g).toNat % 4 = 0 := by
  rw [regionTarget_toNat]
  omega

theorem State.branch_npc_mod_four {taken : Bool} {imm16 : Imm16} (h : s.branch taken imm16 = .next t)
    (h4 : s.npc.toNat % 4 = 0) : t.npc.toNat % 4 = 0 := by
  obtain rfl := State.branch_next.mp h
  cases taken with
  | true => exact add_toNat_mod_four h4 (branchOffset_toNat_mod_four imm16)
  | false => exact add_toNat_mod_four (b := 4#32) h4 rfl

/-! ### The delay slot (rule R90) -/

/-- A running processor executes the instruction it fetches and decodes. -/
theorem step_of_fetchDecode_ok {i : Instr} (hf : s.fault = none) (hh : s.halted = false) (h : s.fetchDecode = .ok i) :
    step s = exec i s := by
  obtain ⟨w, hw, hd⟩ := State.fetchDecode_ok.mp h
  exact step_of_fetchWord_ok hf hh hw hd

/-- A control transfer completes, and the instruction at the old `npc` is next. -/
theorem Effect.control_completes {i : Instr} (e : Effect s i t) (hi : i.isControl = true) :
    t.pc = s.npc ∧ t.fault = s.fault ∧ t.halted = s.halted := by
  obtain ⟨a, rfl⟩ | ⟨-, v, a, rfl⟩ := e.of_control hi <;> simp

/-- An instruction that leaves the processor running has moved `pc` to `npc`. -/
theorem Effect.pc_of_running {i : Instr} (e : Effect s i t) (hf : t.fault = none) (hh : t.halted = false) :
    t.pc = s.npc := by
  obtain ⟨-, h⟩ | ⟨-, f, rfl⟩ := e.completes_or_raises
  · split at h
    · simp [h] at hh
    · exact h.1
  · simp at hf

/-- Settles O19: the transfer completes, and the slot moves `pc` to the `npc` the transfer set. -/
theorem delaySlotExecutesNext : Obligations.DelaySlotExecutesNext := by
  intro i s hi
  obtain ⟨t, ht⟩ := exec_answers i s
  obtain ⟨hpc, hfault, hhalted⟩ := (exec_effect ht).control_completes hi
  refine ⟨t, ht, hpc, hfault, hhalted, fun slot u hf hh hslot => ?_⟩
  have hstep : step t = exec slot t := step_of_fetchDecode_ok hf hh hslot
  exact ⟨hstep, fun hu => (exec_effect (hstep.symm.trans hu)).pc_of_running⟩

/-! ### The instructions (rules R85 to R92) -/

/-- Settles O48: both are `State.branch`, on the equality and on its negation. -/
theorem branchResults : Obligations.BranchResults := by
  refine fun rs rt imm16 s => ⟨?beq, ?bne⟩
  case beq => exact (State.branch_eq (s.reg rs == s.reg rt) imm16).trans (by simp)
  case bne => exact (State.branch_eq (s.reg rs != s.reg rt) imm16).trans (by simp)

/-- Settles O49: the region target as a number; the link is `pc + 8` in the model as in the statement. -/
theorem jumpResults : Obligations.JumpResults := by
  refine fun target26 rs s => ⟨?j, ?jal, rfl⟩
  case j =>
    rw [← regionTarget_eq_ofNat]
    rfl
  case jal =>
    rw [← regionTarget_eq_ofNat]
    exact next_inj.mpr (by simp [State.jumpTo])

/-- Settles O50: offsets and region targets are multiples of 4, and the fetch checks the rest. -/
theorem targetsAreAligned : Obligations.TargetsAreAligned := by
  refine ⟨fun i s t hi h h4 => ?aligned, fun _ _ => rfl, fun s hf hh h => step_misaligned hf hh fun e => ?fetch⟩
  case aligned =>
    cases i with
    | beq _ _ _ | bne _ _ _ => exact State.branch_npc_mod_four h h4
    | j _ | jal _ =>
      obtain rfl := next_inj.mp h
      exact regionTarget_toNat_mod_four ..
    | _ => simp [Instr.mnemonic] at hi
  case fetch => exact h (toNat_mod_four_of_isAligned (isAligned_iff.mpr e))

/-- Settles O51: the slot's instruction answers in the state whose `pc` is the slot and whose `npc` is the first target. -/
theorem jumpInADelaySlot : Obligations.JumpInADelaySlot := by
  intro x y rs rt imm16 s t h
  obtain rfl := next_inj.mp h
  refine ⟨⟨_, rfl, rfl, rfl⟩, ⟨_, rfl, by simp, ?link, rfl⟩, ⟨_, rfl, rfl, rfl⟩, fun e => ?beq⟩
  case link => exact State.setReg_reg_same _ (by decide) _
  case beq => exact ⟨_, State.branch_next.mpr rfl, rfl, by simp [e, branchOffset, signedImm]⟩

end Sys2Proof.Machine
end

section
/-!
PROOFS. DIV outside its corner cases, MFHI and MFLO, and the results of MULT and DIV as they read them
(`43_multiply_divide.md` rules R95 to R99).
-/

namespace Sys2Proof.Machine

/-! ### Truncated division of integers (rule R95) -/

/-- Rule R95's bound on the remainder. -/
theorem abs_tmod_lt (a : Int) {b : Int} (hb : b ≠ 0) : |a.tmod b| < |b| := by
  rw [Int.abs_eq_natAbs, Int.abs_eq_natAbs, Int.natAbs_tmod, Int.ofNat_lt]
  exact Nat.mod_lt _ (Int.natAbs_pos.mpr hb)

/-- Rule R95's sign of the remainder. -/
theorem tmod_eq_zero_or_pos_iff (a b : Int) : a.tmod b = 0 ∨ (0 < a.tmod b ↔ 0 < a) := by
  by_cases h : b ∣ a
  · exact .inl (Int.tmod_eq_zero_of_dvd h)
  · rw [← Int.sign_eq_one_iff_pos, ← Int.sign_eq_one_iff_pos, Int.sign_tmod, if_neg h]
    exact .inr .rfl

/-! ### The quotient and the remainder as words -/

theorem not_divUndefined {a b : Word} (hb : b ≠ 0) (hab : ¬ (a = 0x80000000#32 ∧ b = 0xFFFFFFFF#32)) :
    ¬ divUndefined a b = true :=
  fun h => (divUndefined_iff.mp h).elim hb hab

theorem quotient_eq_sdiv (a b : Word) : quotient a b = a.sdiv b := by
  rw [← BitVec.toInt_inj, quotient, BitVec.toInt_ofInt, BitVec.toInt_sdiv]

theorem remainder_eq_ofInt_tmod (a b : Word) : remainder a b = BitVec.ofInt 32 (a.toInt.tmod b.toInt) := by
  rw [remainder, Int.tmod_def, Int.mul_comm]

/-- Of the quotients by a nonzero divisor only that of -2^31 and -1 does not fit a word. -/
theorem quotient_toInt {a b : Word} (hab : ¬ (a = 0x80000000#32 ∧ b = 0xFFFFFFFF#32)) :
    (quotient a b).toInt = a.toInt.tdiv b.toInt := by
  rw [quotient_eq_sdiv]
  exact BitVec.toInt_sdiv_of_ne_or_ne a b (not_and_or.mp hab)

theorem remainder_toInt (a b : Word) : (remainder a b).toInt = a.toInt.tmod b.toInt := by
  rw [remainder_eq_ofInt_tmod, ← BitVec.toInt_srem, BitVec.ofInt_toInt]

/-! ### What the instructions answer -/

variable {rs rt : RegNo} {s : State}

theorem exec_div_of_defined (h : ¬ divUndefined (s.reg rs) (s.reg rt) = true) :
    exec (.div rs rt) s =
      .next (((s.setLo (quotient (s.reg rs) (s.reg rt))).setHi (remainder (s.reg rs) (s.reg rt))).advance 4#32) :=
  if_neg h

/-- A delivered result is what the destination then reads. -/
theorem State.deliver_reads {r : RegNo} (hr : r ≠ 0) (v : Word) : ∃ u, s.deliver r v = .next u ∧ u.reg r = v :=
  ⟨_, rfl, State.setReg_reg_same s hr v⟩

/-! ### The obligations -/

/-- Settles O37: the two numbers are truncated division's, and the quotient is in range because it fits a word. -/
theorem divideResult : Obligations.DivideResult := by
  intro rs rt s hb hab
  have hq := quotient_toInt hab
  have hb0 : (s.reg rt).toInt ≠ 0 := BitVec.toInt_ne.mpr hb
  refine ⟨_, _, (Int.tdiv_mul_add_tmod ..).symm, abs_tmod_lt _ hb0, tmod_eq_zero_or_pos_iff .., ?low, ?high, ?effect⟩
  case low => exact hq ▸ BitVec.le_toInt _
  case high => exact hq ▸ Int.le_sub_one_of_lt BitVec.toInt_lt
  case effect =>
    rw [← remainder_eq_ofInt_tmod]
    exact exec_div_of_defined (not_divUndefined hb hab)

/-- Settles O40: both moves deliver a word to the destination. -/
theorem moveFromHiAndLo : Obligations.MoveFromHiAndLo :=
  fun _ _ => ⟨State.deliver_eq .., State.deliver_eq ..⟩

/-- Settles O41: `LO` and `HI` hold the results in the state the MULT or DIV answers, and the move delivers them. -/
theorem resultsReadableAtOnce : Obligations.ResultsReadableAtOnce := by
  refine fun rs rt rd s t hrd => ⟨fun h => ?mult, fun h hb hab => ?div⟩
  case mult =>
    obtain rfl := next_inj.mp h
    exact State.deliver_reads hrd _
  case div =>
    obtain rfl := next_inj.mp ((exec_div_of_defined (not_divUndefined hb hab)).symm.trans h)
    rw [← quotient_toInt hab, ← remainder_toInt]
    exact ⟨(State.deliver_reads hrd _).imp fun _ ⟨hu, hlo⟩ => ⟨hu, congrArg _ hlo⟩,
      (State.deliver_reads hrd _).imp fun _ ⟨hu, hhi⟩ => ⟨hu, congrArg _ hhi⟩⟩

end Sys2Proof.Machine
end

section
/-!
PROOFS. A load of what a store of the same width put there (`44_load_store.md` rule R105).
-/

namespace Sys2Proof.Machine

variable {s t : State} {rs rt rs' rt' : RegNo} {imm16 imm16' : Imm16}

/-- The low byte of a word, filled by the sign, is that word when a signed byte can hold its value. -/
theorem signedByte_lowByte_eq_self_iff {w : Word} :
    signedByte (lowByte w) = w ↔ -128 ≤ w.toInt ∧ w.toInt ≤ 127 := by
  have hcong : (256 : Int) ∣ w.toInt - w.toNat := by
    rw [BitVec.toInt_eq_toNat_cond]
    omega
  rw [signedByte, lowByte, ← BitVec.toInt_inj, BitVec.toInt_signExtend_of_le (by decide), BitVec.toInt_extractLsb',
    Nat.shiftRight_zero, Int.bmod_eq_iff (by decide)]
  omega

/-- LW at the address of an SW that completed gives the register stored. -/
theorem exec_lw_of_sw (hea : t.ea rs' imm16' = s.ea rs imm16) (h : exec (.sw rs rt imm16) s = .next t)
    (ht : t.fault = none) :
    exec (.lw rs' rt' imm16') t = .next { t.setReg rt' (s.reg rt) with pc := t.npc, npc := t.npc + 4 } := by
  obtain ⟨ha, hm, rfl⟩ := exec_sw_completed h ht
  exact exec_lw_ok hea ha (List.all_eq_true.mp hm) (s.setWord_wordAt ..)

/-- LB at the address of an SB that completed gives the low byte stored, filled by its sign. -/
theorem exec_lb_of_sb (hea : t.ea rs' imm16' = s.ea rs imm16) (h : exec (.sb rs rt imm16) s = .next t)
    (ht : t.fault = none) :
    exec (.lb rs' rt' imm16') t =
      .next { t.setReg rt' (signedByte (lowByte (s.reg rt))) with pc := t.npc, npc := t.npc + 4 } := by
  obtain ⟨hm, rfl⟩ := exec_sb_completed h ht
  exact exec_lb_ok hea hm ((s.setByte_byte ..).trans (if_pos rfl))

/-- Settles O46: the load reads back what the completed store wrote at the same effective address. -/
theorem storeThenLoadReturnsTheValue : Obligations.StoreThenLoadReturnsTheValue :=
  fun _ _ _ _ _ _ _ _ _ ht hea =>
    ⟨fun h => exec_lw_of_sw hea.symm h ht, fun h => exec_lb_of_sb hea.symm h ht, signedByte_lowByte_eq_self_iff⟩

end Sys2Proof.Machine
end

section
/-!
PROOFS. SLL, SRL and SRA (`45_shift.md`).
-/

namespace Sys2Proof.Machine

/-! ### The bits of a shifted word (rules R107 to R109) -/

theorem shiftLeft_getLsbD {k : Nat} (hk : k < 32) (a : Word) (n : Nat) :
    (a <<< n).getLsbD k = if k < n then false else a.getLsbD (k - n) := by
  rw [BitVec.getLsbD_shiftLeft, decide_eq_true hk, Bool.true_and]
  by_cases hn : k < n <;> simp [hn]

/-- A logical right shift fills with 0, which is what a word reads above bit 31. -/
theorem ushiftRight_getLsbD (a : Word) (n k : Nat) :
    (a >>> n).getLsbD k = if k + n < 32 then a.getLsbD (k + n) else false := by
  rw [BitVec.getLsbD_ushiftRight, Nat.add_comm n k]
  split
  case isTrue => rfl
  case isFalse h => exact BitVec.getLsbD_of_ge a _ (Nat.le_of_not_lt h)

/-- An arithmetic right shift fills with the sign bit. -/
theorem sshiftRight_getLsbD {k : Nat} (hk : k < 32) (a : Word) (n : Nat) :
    (a.sshiftRight n).getLsbD k = if k + n < 32 then a.getLsbD (k + n) else a.getLsbD 31 := by
  rw [BitVec.getLsbD_sshiftRight, decide_eq_false (Nat.not_le_of_lt hk), Bool.not_false, Bool.true_and,
    BitVec.msb_eq_getLsbD_last, Nat.add_comm n k]

/-! ### The arithmetic shift as a division (rule R109) -/

/-- By a positive divisor, floor division is the Euclidean division of the library's shift. -/
theorem sshiftRight_eq_ofInt_fdiv (a : Word) (n : Nat) :
    a.sshiftRight n = BitVec.ofInt 32 (a.toInt.fdiv (2 ^ n)) := by
  rw [BitVec.sshiftRight, Int.shiftRight_eq_div_pow, Int.fdiv_eq_ediv_of_nonneg _ (Int.pow_nonneg (by decide)),
    Int.natCast_pow, Nat.cast_ofNat]

/-! ### The instructions -/

/-- Settles O35: each instruction delivers the library's shift, whose bits the lemmas above give. -/
theorem shiftResultsBitByBit : Obligations.ShiftResultsBitByBit :=
  fun _ _ _ _ _ =>
    ⟨⟨_, State.deliver_eq .., fun _ hk => shiftLeft_getLsbD hk ..⟩,
      ⟨_, State.deliver_eq .., fun _ _ => ushiftRight_getLsbD ..⟩,
      ⟨_, State.deliver_eq .., fun _ hk => sshiftRight_getLsbD hk ..⟩⟩

/-- Settles O36: the arithmetic shift is the division, and it is what SRA delivers. -/
theorem arithmeticShiftIsFloorDivision : Obligations.ArithmeticShiftIsFloorDivision := by
  intro g rt rd h s
  rw [← sshiftRight_eq_ofInt_fdiv]
  exact State.deliver_eq ..

end Sys2Proof.Machine
end

section
/-!
PROOFS. ASRT, ASRTI and HALT (`46_testing.md`).
-/

namespace Sys2Proof.Machine

/-! ### Assertions (rules R110, R111) -/

section
variable {s : State} {v1 v2 : Word}

theorem State.assertEqual_of_eq (h : v1 = v2) : s.assertEqual v1 v2 = .next { s with pc := s.npc, npc := s.npc + 4 } :=
  State.assertEqual_next.mpr (.inl ⟨h, rfl⟩)

theorem State.assertEqual_of_ne (h : v1 ≠ v2) :
    s.assertEqual v1 v2 = .next { s with fault := some (.assertFailed s.pc v1 v2) } :=
  State.assertEqual_next.mpr (.inr ⟨h, rfl⟩)

end

/-- A word is the sign-extended immediate when the two are the same signed number. -/
theorem toInt_eq_imm_iff {v : Word} {imm16 : Imm16} : v.toInt = imm16.toInt ↔ v = signedImm imm16 := by
  rw [← signedImm_toInt, BitVec.toInt_inj]

/-- Settles O52: both instructions are `State.assertEqual`, ASRTI's with the sign-extended immediate. -/
theorem assertResults : Obligations.AssertResults :=
  fun _ _ _ _ =>
    ⟨State.assertEqual_of_eq, State.assertEqual_of_ne, fun h => State.assertEqual_of_eq (toInt_eq_imm_iff.mp h),
      fun h => State.assertEqual_of_ne (toInt_eq_imm_iff.not.mp h)⟩

/-! ### HALT among the words (rules R60, R112) -/

theorem encode_halt : encode .halt = 0x58000000#32 := rfl

theorem decode_halt_iff {w : Word} : decode w = .ok .halt ↔ w = 0x58000000#32 := by
  constructor
  · intro h
    rw [← encodeOfDecode w .halt h, encode_halt]
  · rintro rfl
    exact decodeOfEncode .halt

/-- The words of HALT's opcode decode to HALT or are reserved. -/
theorem decode_of_halt_opcode {w : Word} (h : opcodeOf w = 0x16#6) :
    decode w = withFixedBits (target26Of w == 0#26) .halt := by
  simp [decode, h]

theorem decode_error_of_halt_opcode {w : Word} (h : opcodeOf w = 0x16#6) (hw : w ≠ 0x58000000#32) :
    ∃ why, decode w = .error why := by
  cases hd : decode w with
  | error why => exact ⟨why, rfl⟩
  | ok i =>
    obtain ⟨-, rfl⟩ := withFixedBits_ok.mp ((decode_of_halt_opcode h).symm.trans hd)
    exact absurd (decode_halt_iff.mp hd) hw

/-- Settles O14: the text by running the assembler, the words by `decode_halt_iff`; the step executes HALT, and the halted
state it leaves is its own next state. -/
theorem haltStopsForGood : Obligations.HaltStopsForGood := by
  refine ⟨by decide, fun w => decode_halt_iff, fun w => decode_error_of_halt_opcode,
    fun s hf hh hw => ⟨?halts, fun t ht => ?stays⟩⟩
  case halts => exact step_of_fetchWord_ok hf hh hw (decode_halt_iff.mpr rfl)
  case stays =>
    have hstep : step s.halt = .next s.halt := step_of_halted hf rfl
    exact (next_inj.mp (hstep.symm.trans ht)).symm

end Sys2Proof.Machine
end

section
/-!
PROOFS. The faults: what records one, when, and what it holds (`60_exceptions.md`).
-/

namespace Sys2Proof.Machine

variable {i : Instr} {s t : State} {f : Fault}

/-! ### A recorded fault changes nothing else (`60_exceptions.md` rule R116) -/

/-- An instruction that records a fault is one that can raise, and it raised that fault. -/
theorem Effect.raises_of_fault (e : Effect s i t) (hs : s.fault = none) (hf : t.fault = some f) :
    i.mayRaise = true ∧ t = s.raise f := by
  obtain ⟨hkeeps, -⟩ | ⟨hm, g, rfl⟩ := e.completes_or_raises
  · simp [hkeeps, hs] at hf
  · obtain rfl : g = f := Option.some.inj hf
    exact ⟨hm, rfl⟩

/-- A step that leaves a recorded fault started without one and raised it, in the fetch, the decoding or the execution. -/
theorem step_raises_of_fault (h : step s = .next t) (hf : t.fault = some f) : s.fault = none ∧ t = s.raise f := by
  obtain ⟨hs, ⟨-, rfl⟩ | ⟨-, g, -, rfl⟩ | ⟨-, i, -, -, e⟩⟩ := step_effect h
  · simp [hs] at hf
  · obtain rfl : g = f := Option.some.inj hf
    exact ⟨hs, rfl⟩
  · exact ⟨hs, (e.raises_of_fault hs hf).2⟩

/-- Settles O16: a step records a fault by `State.raise`, and a recorded fault is the next step's answer. -/
theorem faultChangesNothingElse : Obligations.FaultChangesNothingElse := by
  intro s t f h hf
  obtain ⟨hs, rfl⟩ := step_raises_of_fault h hf
  exact ⟨hs, rfl, fun u hu => nomatch (step_of_fault hf).symm.trans hu⟩

/-! ### When the shared ends of instructions record a fault (`60_exceptions.md` rule R115) -/

section
variable (hs : s.fault = none)
include hs

theorem State.deliverExact_fault {r : RegNo} {v : Int} (h : s.deliverExact r v = .next t) :
    t.fault = some f ↔ f = .integerOverflow s.pc ∧ (v < -2 ^ 31 ∨ 2 ^ 31 - 1 < v) := by
  rw [← overflows_eq_true]
  obtain ⟨ho, rfl⟩ | ⟨ho, rfl⟩ := State.deliverExact_next.mp h
  · simp [ho, hs]
  · simp [ho, eq_comm]

theorem State.assertEqual_fault {v1 v2 : Word} (h : s.assertEqual v1 v2 = .next t) :
    t.fault = some f ↔ f = .assertFailed s.pc v1 v2 ∧ v1 ≠ v2 := by
  obtain ⟨hv, rfl⟩ | ⟨hv, rfl⟩ := State.assertEqual_next.mp h
  · simp [hv, hs]
  · simp [hv, eq_comm]

theorem Effect.no_fault (e : Effect s i t) (hi : i.mayRaise = false) : t.fault ≠ some f :=
  fun hf => by simp [(e.raises_of_fault hs hf).1] at hi

end

/-- An access that raises records its own fault; one that completes records none. -/
theorem State.orRaise_map_fault {α : Type} {x : Except Fault α} {g : α → State}
    (hg : ∀ a, x = .ok a → (g a).fault = none) (h : s.orRaise (x.map g) = .next t) :
    t.fault = some f ↔ x = .error f := by
  cases x with
  | ok a =>
    obtain rfl := next_inj.mp h
    simp [hg a rfl]
  | error e =>
    obtain rfl := next_inj.mp h
    simp

/-! ### Which fault each instruction records (`60_exceptions.md` rules R115, R117) -/

/-- The effective address, as the statement writes it (`20_memory.md` rule R33). -/
theorem State.reg_add_signExtend (rs : RegNo) (imm16 : Imm16) : s.reg rs + imm16.signExtend 32 = s.ea rs imm16 := rfl

/-- The addresses of a word, as the statement writes them. -/
theorem list_eq_wordAddrs (a : Word) : [a, a + 1#32, a + 2#32, a + 3#32] = wordAddrs a := rfl

/-- Settles O25: an arithmetic or testing instruction by the end it shares, an access by the checks of its memory primitive,
which record its own effective address and no other; every other instruction cannot raise. -/
theorem faultsByInstruction : Obligations.FaultsByInstruction := by
  intro i s t f hs h
  cases i with
  | add rs rt rd | sub rs rt rd =>
    rw [State.deliverExact_fault hs h]
    cases f <;> simp
  | addi rs rt imm16 =>
    rw [State.deliverExact_fault hs h, signedImm_toInt]
    cases f <;> simp
  | asrt rs rt | asrti rt imm16 =>
    rw [State.assertEqual_fault hs h]
    cases f with
    | assertFailed a v1 v2 =>
      rw [Fault.assertFailed.injEq]
      constructor
      · rintro ⟨⟨rfl, rfl, rfl⟩, hne⟩
        exact ⟨rfl, hne, rfl, rfl⟩
      · rintro ⟨rfl, hne, rfl, rfl⟩
        exact ⟨⟨rfl, rfl, rfl⟩, hne⟩
    | _ => simp
  | lb rs rt imm16 =>
    rw [State.orRaise_map_fault (by simp [hs]) h, State.memRead1_error]
    cases f with
    | unmappedAccess ea _ _ | uninitialisedRead ea =>
      by_cases hea : ea = s.ea rs imm16 <;> simp [State.reg_add_signExtend, hea, and_comm, and_assoc]
    | _ => simp
  | lw rs rt imm16 =>
    rw [State.orRaise_map_fault (by simp [hs]) h, State.memRead4_error, State.wordAt_error]
    cases f with
    | misalignedAccess ea _ | unmappedAccess ea _ _ | uninitialisedRead ea =>
      by_cases hea : ea = s.ea rs imm16 <;>
        simp [State.reg_add_signExtend, hea, isAligned_iff, isAligned_eq_false, list_eq_wordAddrs, and_comm, and_left_comm,
          and_assoc]
    | _ => simp
  | sb rs rt imm16 =>
    rw [State.orRaise_map_fault (by simp +contextual [hs, State.memWrite1_ok]) h, State.memWrite1_error]
    cases f with
    | unmappedAccess ea _ _ | textWrite ea =>
      by_cases hea : ea = s.ea rs imm16 <;> simp [State.reg_add_signExtend, hea, and_comm, and_assoc]
    | _ => simp
  | sw rs rt imm16 =>
    rw [State.orRaise_map_fault (by simp +contextual [hs, State.memWrite4_ok]) h, State.memWrite4_error]
    cases f with
    | misalignedAccess ea _ | unmappedAccess ea _ _ | textWrite ea =>
      by_cases hea : ea = s.ea rs imm16 <;>
        simp [State.reg_add_signExtend, hea, isAligned_iff, isAligned_eq_false, list_eq_wordAddrs, and_comm, and_left_comm,
          and_assoc]
    | _ => simp
  | _ =>
    have hf := (exec_effect h).no_fault (f := f) hs rfl
    cases f <;> simpa using hf

end Sys2Proof.Machine
end
